-- ==== Sys2Proof/Word.lean ====
section
/-! DEFINITION. The word types of the engine (00_scope R14). -/

namespace Sys2Proof

/-- A byte of IBUF, OBUF or of a wire frame (R14). -/
abbrev Byte := BitVec 8

/-- A 16-bit quantity: the CRC, a register address, a register count (R14). -/
abbrev Half := BitVec 16

/-- A control register, a command word, a host address (R14). -/
abbrev Word := BitVec 32

/-- One entry of VALUES (R14, R52). -/
abbrev Value := BitVec 64

end Sys2Proof
end

