-- ==== Sys2Proof/Syntax.lean ====
section
/-! DEFINITION. The instructions: one constructor per row of spec/opcode_table.json (30_encoding R105). -/

namespace Sys2Proof

/-- The 19 commands of MBFE-1 (R105). A command names no register and has no immediate (R47, R103). -/
inductive Instr where
  /-- CRC16, 40_crc R133. -/
  | crc16
  /-- BUILD_REQ, 41_encoder R152. -/
  | buildReq
  /-- VALIDATE, 42_validator R172. -/
  | validate
  /-- DECODE_BITS, 43_decoder R191. -/
  | decodeBits
  /-- DECODE_INT.U16, 43_decoder R202. -/
  | decodeIntU16
  /-- DECODE_INT.S16, 43_decoder R203. -/
  | decodeIntS16
  /-- DECODE_INT.U32, 43_decoder R204. -/
  | decodeIntU32
  /-- DECODE_INT.S32, 43_decoder R205. -/
  | decodeIntS32
  /-- DECODE_INT.U64, 43_decoder R206. -/
  | decodeIntU64
  /-- DECODE_INT.S64, 43_decoder R207. -/
  | decodeIntS64
  /-- DECODE_FLOAT.F32, 43_decoder R211. -/
  | decodeFloatF32
  /-- DECODE_FLOAT.F64, 43_decoder R212. -/
  | decodeFloatF64
  /-- PLAN.COILS, 44_framer R234. -/
  | planCoils
  /-- PLAN.DISCRETE, 44_framer R235. -/
  | planDiscrete
  /-- PLAN.INT16, 44_framer R236. -/
  | planInt16
  /-- PLAN.INT32, 44_framer R236. -/
  | planInt32
  /-- PLAN.INT64, 44_framer R236. -/
  | planInt64
  /-- PLAN.FLOAT32, 44_framer R237. -/
  | planFloat32
  /-- PLAN.FLOAT64, 44_framer R237. -/
  | planFloat64
deriving DecidableEq, Repr

end Sys2Proof
end

