-- ==== Sys2Proof/WellFormed.lean ====
section
/-! DEFINITION. The fields of a command word (30_encoding R100) and which field tuples are commands (R102). Every
constructor of Instr is a command without operands, so well-formedness is a matter of the word's fields. -/

namespace Sys2Proof

/-- The five fields of a command word (R100). -/
structure Fields where
  /-- OPC, bits [3:0]. -/
  opc : BitVec 4
  /-- WSEL, bits [5:4]. -/
  wsel : BitVec 2
  /-- SGN, bit [6]. -/
  sgn : BitVec 1
  /-- KIND, bits [8:7]. -/
  kind : BitVec 2
  /-- RSVD, bits [31:9]. -/
  rsvd : BitVec 23
deriving DecidableEq, Repr

/-- R100: the reserved bits must be 0. -/
def Fields.rsvdClear (f : Fields) : Bool := f.rsvd == 0

/-- R100: opcodes 1 to 7 are assigned, 0 and 8 to 15 are reserved. -/
def Fields.opcAssigned (f : Fields) : Bool := decide (1 ≤ f.opc.toNat) && decide (f.opc.toNat ≤ 7)

/-- R102: every field the operation marks "0" is zero. -/
def Fields.unusedClear (f : Fields) : Bool :=
  match f.opc.toNat with
  | 5 => f.kind == 0
  | 6 => f.sgn == 0 && f.kind == 0
  | 7 => f.sgn == 0 && (decide (2 ≤ f.kind.toNat) || f.wsel == 0)
  | _ => f.wsel == 0 && f.sgn == 0 && f.kind == 0

/-- R102, R106: the width or precision selector, where the operation uses it, is a recognised one. -/
def Fields.selectorKnown (f : Fields) : Bool :=
  match f.opc.toNat, f.kind.toNat with
  | 5, _ => !(f.wsel == 3)
  | 6, _ => !(f.wsel == 0) && !(f.wsel == 3)
  | 7, 2 => !(f.wsel == 3)
  | 7, 3 => !(f.wsel == 0) && !(f.wsel == 3)
  | _, _ => true

/-- The legal part of R101: such a word never raises IllegalCommand. -/
def Fields.legal (f : Fields) : Bool := f.rsvdClear && f.opcAssigned && f.unusedClear

/-- A field tuple that is one of the 19 accepted commands (R105). -/
def Fields.wellFormed (f : Fields) : Bool := f.legal && f.selectorKnown

end Sys2Proof
end

