-- ==== Sys2Proof/Decode.lean ====
section
/-! DEFINITION. The command decoder (30_encoding R101), total on every 32-bit word, and the encoder of the 19
accepted words (R105). -/

namespace Sys2Proof

/-- The two ways a word is rejected before its operation starts (R101, R106, R107). -/
inductive Reject where
  /-- IllegalCommand (R107): reserved bits, reserved opcode, nonzero unused field. -/
  | illegalCommand
  /-- InvalidFormat (R106): unrecognised width or precision selector. -/
  | invalidFormat
deriving DecidableEq, Repr

/-- R100: the fields of a command word. -/
def fieldsOf (w : Word) : Fields :=
  { opc := w.extractLsb' 0 4
    wsel := w.extractLsb' 4 2
    sgn := w.extractLsb' 6 1
    kind := w.extractLsb' 7 2
    rsvd := w.extractLsb' 9 23 }

/-- R100: the command word with the given fields. -/
def wordOf (f : Fields) : Word := f.rsvd ++ f.kind ++ f.sgn ++ f.wsel ++ f.opc

/-- R101, operations 1 to 4: every field but OPC must be 0. -/
def decodePlain (f : Fields) (i : Instr) : Except Reject Instr :=
  if f.wsel = 0 ∧ f.sgn = 0 ∧ f.kind = 0 then .ok i else .error .illegalCommand

/-- R101, operation 5 (DECODE_INT): KIND is checked before WSEL. -/
def decodeInt (f : Fields) : Except Reject Instr :=
  if f.kind ≠ 0 then .error .illegalCommand
  else
    match f.wsel.toNat, f.sgn.toNat with
    | 0, 0 => .ok .decodeIntU16
    | 0, _ => .ok .decodeIntS16
    | 1, 0 => .ok .decodeIntU32
    | 1, _ => .ok .decodeIntS32
    | 2, 0 => .ok .decodeIntU64
    | 2, _ => .ok .decodeIntS64
    | _, _ => .error .invalidFormat

/-- R101, operation 6 (DECODE_FLOAT): SGN and KIND are checked before WSEL. -/
def decodeFloat (f : Fields) : Except Reject Instr :=
  if f.sgn ≠ 0 ∨ f.kind ≠ 0 then .error .illegalCommand
  else
    match f.wsel.toNat with
    | 1 => .ok .decodeFloatF32
    | 2 => .ok .decodeFloatF64
    | _ => .error .invalidFormat

/-- R101, operation 7 (PLAN): SGN, then WSEL of the bit kinds (illegal), then the selector. -/
def decodePlan (f : Fields) : Except Reject Instr :=
  if f.sgn ≠ 0 then .error .illegalCommand
  else
    match f.kind.toNat, f.wsel.toNat with
    | 0, 0 => .ok .planCoils
    | 0, _ => .error .illegalCommand
    | 1, 0 => .ok .planDiscrete
    | 1, _ => .error .illegalCommand
    | 2, 0 => .ok .planInt16
    | 2, 1 => .ok .planInt32
    | 2, 2 => .ok .planInt64
    | 2, _ => .error .invalidFormat
    | _, 1 => .ok .planFloat32
    | _, 2 => .ok .planFloat64
    | _, _ => .error .invalidFormat

/-- R101: RSVD first, then the case of OPC; opcodes 0 and 8 to 15 are reserved. -/
def decodeFields (f : Fields) : Except Reject Instr :=
  if f.rsvd ≠ 0 then .error .illegalCommand
  else
    match f.opc.toNat with
    | 1 => decodePlain f .crc16
    | 2 => decodePlain f .buildReq
    | 3 => decodePlain f .validate
    | 4 => decodePlain f .decodeBits
    | 5 => decodeInt f
    | 6 => decodeFloat f
    | 7 => decodePlan f
    | _ => .error .illegalCommand

/-- R101: the command a word selects, or the rejection it raises. -/
def decode (w : Word) : Except Reject Instr := decodeFields (fieldsOf w)

/-- R105: the fields of each accepted word, from the columns OPC, WSEL, SGN, KIND. -/
def instrFields : Instr → Fields
  | .crc16          => { opc := 1, wsel := 0, sgn := 0, kind := 0, rsvd := 0 }
  | .buildReq       => { opc := 2, wsel := 0, sgn := 0, kind := 0, rsvd := 0 }
  | .validate       => { opc := 3, wsel := 0, sgn := 0, kind := 0, rsvd := 0 }
  | .decodeBits     => { opc := 4, wsel := 0, sgn := 0, kind := 0, rsvd := 0 }
  | .decodeIntU16   => { opc := 5, wsel := 0, sgn := 0, kind := 0, rsvd := 0 }
  | .decodeIntS16   => { opc := 5, wsel := 0, sgn := 1, kind := 0, rsvd := 0 }
  | .decodeIntU32   => { opc := 5, wsel := 1, sgn := 0, kind := 0, rsvd := 0 }
  | .decodeIntS32   => { opc := 5, wsel := 1, sgn := 1, kind := 0, rsvd := 0 }
  | .decodeIntU64   => { opc := 5, wsel := 2, sgn := 0, kind := 0, rsvd := 0 }
  | .decodeIntS64   => { opc := 5, wsel := 2, sgn := 1, kind := 0, rsvd := 0 }
  | .decodeFloatF32 => { opc := 6, wsel := 1, sgn := 0, kind := 0, rsvd := 0 }
  | .decodeFloatF64 => { opc := 6, wsel := 2, sgn := 0, kind := 0, rsvd := 0 }
  | .planCoils      => { opc := 7, wsel := 0, sgn := 0, kind := 0, rsvd := 0 }
  | .planDiscrete   => { opc := 7, wsel := 0, sgn := 0, kind := 1, rsvd := 0 }
  | .planInt16      => { opc := 7, wsel := 0, sgn := 0, kind := 2, rsvd := 0 }
  | .planInt32      => { opc := 7, wsel := 1, sgn := 0, kind := 2, rsvd := 0 }
  | .planInt64      => { opc := 7, wsel := 2, sgn := 0, kind := 2, rsvd := 0 }
  | .planFloat32    => { opc := 7, wsel := 1, sgn := 0, kind := 3, rsvd := 0 }
  | .planFloat64    => { opc := 7, wsel := 2, sgn := 0, kind := 3, rsvd := 0 }

/-- R105: the accepted word of each command. -/
def encode (i : Instr) : Word := wordOf (instrFields i)

/-- The command word that the low `nbits` bits of `w` are, the bits above them 0. -/
def tableWord (nbits w : Nat) : Word := BitVec.ofNat 32 (w % 2 ^ nbits)

/-- The instruction the decoder reads from a row of the opcode table; none where it rejects the word. A command is one
32-bit word (R109), so the table's bit numbering is the word's. -/
def decodeTableWord (nbits w : Nat) : Option Instr :=
  match decode (tableWord nbits w) with
  | .ok i => some i
  | .error _ => none

end Sys2Proof
end

