-- ==== Sys2Proof/Config.lean ====
section
/-! DEFINITION. What an implementation fixes (00_scope R9 to R12, 20_memory R70) and the free draws of the
transport oracle (45_host_pipeline R250). -/

namespace Sys2Proof

/-- BIT_DECODE_MODE (R10): which of the two bit-decode behaviours the engine has. -/
inductive BitMode where
  | asObserved
  | padded
deriving DecidableEq, Repr

/-- The engine's three open parameters. They are a field of State (log 1), so a statement about every state is a
statement about every choice of them; no step changes them (R46, R57). -/
structure Params where
  /-- IBUF_SIZE (R9), in the 16 bits that CONFIG.SIZE reports (R46). -/
  ibufSize : Half
  /-- BIT_DECODE_MODE (R10). -/
  bitMode : BitMode
  /-- ENGINE_BASE (R70): the platform address of offset 0. -/
  engineBase : Word
deriving DecidableEq, Repr

/-- IBUF_SIZE as a number of bytes. -/
def Params.size (p : Params) : Nat := p.ibufSize.toNat

/-- VCAP (R12): the number of entries of VALUES. -/
def Params.vcap (p : Params) : Nat := 8 * p.size

/-- R9: 8 ≤ IBUF_SIZE ≤ 65535 (the upper bound is the 16-bit type's). -/
def Params.wf (p : Params) : Bool := decide (8 ≤ p.size)

/-- The parameters `State.reset` is given. DESIGN CHOICE (log 1): IBUF_SIZE is the spec's reference value 256 (R9);
BIT_DECODE_MODE and ENGINE_BASE are open in the spec. -/
def Params.reference : Params :=
  { ibufSize := 256, bitMode := .asObserved, engineBase := 0 }

/-- OBUF_SIZE (R11). -/
def obufSize : Nat := 8

/-- FREE VALUE (R250, U14; log 4): the bytes the transport has for the host's k-th read call. `read(n)` returns the
first n of them, so any sequence of 0 to n bytes is possible. -/
opaque Config.rxBytes : Nat → List Byte

/-- FREE VALUE (R253, U15; log 4): whether the host's k-th write call ends in a write-timeout. -/
opaque Config.txTimesOut : Nat → Bool

end Sys2Proof
end

