-- ==== Sys2Proof/Machine/State.lean ====
section
/-! DEFINITION. The machine's state as plain data (10_state), the names of its registers, statuses and host moves, and
the state after reset (R61). -/

namespace Sys2Proof.Machine

/-- The outcomes STATUS.CODE names (60_exceptions R281). The reserved codes 0xA to 0xE are never written (U10) and
have no name here (log 16). -/
inductive Status where
  | ok
  | invalidAddress
  | invalidFormat
  | noResponse
  | crcMismatch
  | unexpectedFunction
  | illegalCommand
  | bufferBounds
  | payloadLength
  | fieldRange
  | idle
deriving DecidableEq, Repr

/-- The fifteen control registers (10_state section 2), in the order of their offsets. -/
inductive Reg where
  | cmd | status | func | devAddr | start | qty | count | ibufLen | poff | plen | obufLen | crc | explen | vcount | config
deriving DecidableEq, Repr

/-- A buffer location that may hold no value (R58). -/
inductive BufLoc where
  | ibuf (i : Nat)
  | obuf (i : Nat)
  | values (e : Nat)
deriving DecidableEq, Repr

/-- Why a step stops with a model fault (60_exceptions R294); no state follows (log 11). -/
inductive Fault where
  /-- R60: a command or a host read reaches a buffer location holding no value. Raised by CRC16, VALIDATE, the decode
  commands and host reads of IBUF, OBUF, VALUES (log 3). Safe: the hardware returns some byte, the model claims
  nothing. -/
  | unwritten (loc : BufLoc)
  /-- R78: a host access the engine does not accept (unmapped offset, wrong width, misaligned, write to a read-only
  place). Raised by the host's bus reads and writes; it carries the offset. Safe: the model claims nothing. -/
  | busError (off : Word)
deriving DecidableEq, Repr

/-- Why a step has no meaning. -/
inductive Refusal where
  /-- An instruction not modelled yet (no arm of exec uses it). Safe. -/
  | notModelled (mnemonic : String)
  /-- R262, U18: a pseudo-operation of the host whose dev, start or count has no 32-bit form: the operation is not run.
  Raised by the host's side only, never by a command (log 13). Safe. -/
  | noThirtyTwoBitForm
deriving DecidableEq, Repr

/-- The integer widths a caller may select (R252). -/
inductive IntWidth where
  | w16 | w32 | w64
deriving DecidableEq, Repr

/-- The float precisions a caller may select (R252). -/
inductive FloatPrec where
  | f32 | f64
deriving DecidableEq, Repr

/-- The four pseudo-operations (30_encoding R112). A selector of `none` is an unrecognised one (R252). -/
inductive ReadOp where
  | coils (dev start count : Int)
  | discreteInputs (dev start count : Int)
  | ints (dev start count : Int) (width : Option IntWidth) (signed : Bool)
  | floats (dev start count : Int) (prec : Option FloatPrec)
deriving DecidableEq, Repr

/-- What the outside world does to the engine, one move at a time (R30, R110 to R112, R310). -/
inductive Move where
  /-- MemRead of n bytes at a platform address (R76). -/
  | busRead (addr : Word) (n : Nat)
  /-- MemWrite of n bytes at a platform address (R77). -/
  | busWrite (addr : Word) (n : Nat) (v : Word)
  /-- RDV i (R111). -/
  | readValue (i : Nat)
  /-- LOADRESP of given bytes (R111). -/
  | loadResp (bytes : List Byte)
  /-- LOADRESP of the bytes last received (R251 step 11). -/
  | loadReceived
  /-- XMIT (R253). -/
  | xmit
  /-- RECV n (R254). -/
  | recv (n : Nat)
  /-- RECV n, discard (R256). -/
  | recvDiscard (n : Nat)
  /-- RECV min(EXPLEN, IBUF_SIZE) (R251 step 10). -/
  | recvExpected
  /-- IF STATUS != OK: FAIL (R111). -/
  | failUnlessOk
  /-- Step 16 of R251: read VALUES[0 .. VCOUNT-1]. -/
  | readValues
  /-- Step 16 of R251: the operation ends with the values read. -/
  | succeed
  /-- A pseudo-operation (R112), expanded as R251 says. -/
  | readOp (op : ReadOp)
  /-- The platform asserts the reset input (R310). -/
  | platformReset
deriving DecidableEq, Repr

/-- How the host operation stands (R257). -/
inductive HostOutcome where
  /-- No operation has been started. -/
  | notStarted
  /-- An operation is under way. -/
  | running
  /-- Success with the values of step 16. -/
  | success (values : List Value)
  /-- The engine status (as read from STATUS) that ended the operation. -/
  | failed (code : Word)
  /-- The transport's write timed out (R253). -/
  | writeTimeout
deriving DecidableEq, Repr

/-- The host's side: what the host of 45_host_pipeline knows and has still to do. Model's own fields (log 2, log 6). -/
structure HostSide where
  /-- The moves still to come, next first. -/
  moves : List Move
  /-- ECHO (R13). -/
  echo : Bool
  /-- The data of the last bus read. -/
  readData : Option Word
  /-- The bytes of the last RECV that was not discarded. -/
  received : List Byte
  /-- The frames handed to the transport's write, oldest first. -/
  sent : List (List Byte)
  /-- Write calls made to the transport so far. -/
  writeCalls : Nat
  /-- Read calls made to the transport so far. -/
  readCalls : Nat
  /-- The entries read by RDV in this operation, in order. -/
  results : List Value
  /-- The operation's outcome. -/
  outcome : HostOutcome
deriving DecidableEq, Repr

/-- The state: the registers of R32 to R46 (a register's reserved bits read as 0 and are not stored, R31, log 12), the
buffers of R50 to R52 as index and element pairs with strictly rising indices (an unlisted index holds no value, R58, R59), the
parameters, and the host's side. CONFIG is computed from the parameters (R46). -/
structure State where
  params : Params
  /-- CMD (R32). -/
  cmd : Word
  /-- STATUS.CODE (R33). -/
  status : Status
  /-- FUNC.FN (R34). -/
  func : Byte
  /-- DEV_ADDR (R35). -/
  devAddr : Word
  /-- START (R36). -/
  start : Word
  /-- QTY (R37). -/
  qty : Word
  /-- COUNT (R38). -/
  count : Word
  /-- IBUF_LEN.LEN (R39). -/
  ibufLen : Half
  /-- POFF.OFF (R40). -/
  poff : Half
  /-- PLEN.LEN (R41). -/
  plen : Half
  /-- OBUF_LEN.LEN (R42). -/
  obufLen : BitVec 4
  /-- CRC.VALUE (R43). -/
  crc : Half
  /-- EXPLEN (R44). -/
  explen : Word
  /-- VCOUNT (R45). -/
  vcount : Word
  /-- IBUF (R50): the bytes that hold a value, by index. -/
  ibuf : List Host.Cell
  /-- OBUF (R51): the bytes that hold a value, by index. -/
  obuf : List Host.Cell
  /-- VALUES (R52): the entries that hold a value, by index. -/
  values : List (Nat × Value)
  /-- The host's side (R30). -/
  host : HostSide
deriving DecidableEq, Repr

/-- The host before its first operation. DESIGN CHOICE (log 2, log 6): the spec gives the host no reset. -/
def HostSide.initial : HostSide :=
  { moves := [], echo := false, readData := none, received := [], sent := [], writeCalls := 0, readCalls := 0
    results := [], outcome := .notStarted }

/-- R61, R310: the engine with parameters `p` right after reset, beside a host that has not started. -/
def State.resetFor (p : Params) : State :=
  { params := p
    cmd := 0, status := .idle, func := 0, devAddr := 0, start := 0, qty := 0, count := 0
    ibufLen := 0, poff := 0, plen := 0, obufLen := 0, crc := 0, explen := 0, vcount := 0
    ibuf := [], obuf := [], values := []
    host := HostSide.initial }

/-- The machine right after reset (R61), with the parameters of log 1. -/
def State.reset : State := State.resetFor Params.reference

end Sys2Proof.Machine
end

