-- ==== Sys2Proof/Machine/Ops.lean ====
section
/-! DEFINITION. The named operations over buffers and registers (10_state R31 to R60, 20_memory R76, R77). -/

namespace Sys2Proof.Machine

/-! ### Bytes of a word -/

/-- R15: byte `lo` of a 16-bit value. -/
def loByte (v : Half) : Byte := v.extractLsb' 0 8

/-- R15: byte `hi` of a 16-bit value. -/
def hiByte (v : Half) : Byte := v.extractLsb' 8 8

/-- R17: the two bytes of a 16-bit value, high byte first. -/
def be16 (v : Half) : List Byte := [hiByte v, loByte v]

/-! ### Buffers: index and element pairs, strictly rising; an unlisted index holds no value (R58) -/

/-- The element at an index, none where the location holds no value. -/
def Memory.read {α : Type} : List (Nat × α) → Nat → Option α
  | [], _ => none
  | (k, v) :: m, i => if k = i then some v else Memory.read m i

/-- A write makes the location hold the value (R58) and keeps the indices strictly rising. -/
def Memory.write {α : Type} : List (Nat × α) → Nat → α → List (Nat × α)
  | [], i, v => [(i, v)]
  | (k, w) :: m, i, v =>
    if i < k then (i, v) :: (k, w) :: m
    else if i = k then (i, v) :: m
    else (k, w) :: Memory.write m i v

/-- The buffer whose locations o, o+1, … hold the given elements and whose other locations hold no value. -/
def Memory.ofListFrom {α : Type} : Nat → List α → List (Nat × α)
  | _, [] => []
  | o, v :: vs => (o, v) :: Memory.ofListFrom (o + 1) vs

/-- R51, R52: a buffer after a command has written entries 0 to n-1 and made every other one hold no value. -/
def Memory.ofList {α : Type} (vs : List α) : List (Nat × α) := Memory.ofListFrom 0 vs

/-- The elements at o, …, o+n-1 in order, or the first index among them that holds no value (R60). -/
def Memory.readRange {α : Type} (m : List (Nat × α)) : Nat → Nat → Except Nat (List α)
  | _, 0 => .ok []
  | o, n + 1 =>
    match Memory.read m o with
    | none => .error o
    | some v =>
      match Memory.readRange m (o + 1) n with
      | .error i => .error i
      | .ok vs => .ok (v :: vs)

/-- Indices at least `lo`, below `hi` and strictly rising. -/
def Memory.wfFrom {α : Type} (hi : Nat) : Nat → List (Nat × α) → Bool
  | _, [] => true
  | lo, (k, _) :: m => decide (lo ≤ k) && decide (k < hi) && Memory.wfFrom hi (k + 1) m

/-- The canonical form of a buffer of `size` locations. -/
def Memory.wf {α : Type} (size : Nat) (m : List (Nat × α)) : Bool := Memory.wfFrom size 0 m

/-! ### Registers -/

/-- 60_exceptions R281: the code of a status. -/
def Status.code : Status → BitVec 4
  | .ok => 0x0
  | .invalidAddress => 0x1
  | .invalidFormat => 0x2
  | .noResponse => 0x3
  | .crcMismatch => 0x4
  | .unexpectedFunction => 0x5
  | .illegalCommand => 0x6
  | .bufferBounds => 0x7
  | .payloadLength => 0x8
  | .fieldRange => 0x9
  | .idle => 0xF

/-- R46: CONFIG.SIZE in bits [15:0], CONFIG.BITMODE in bit [16]. -/
def configWord (p : Params) : Word :=
  (match p.bitMode with | .asObserved => (0 : Word) | .padded => 0x00010000) ||| p.ibufSize.setWidth 32

/-- A register's number: its offset is four times it (R71). -/
def Reg.index : Reg → Nat
  | .cmd => 0 | .status => 1 | .func => 2 | .devAddr => 3 | .start => 4 | .qty => 5 | .count => 6 | .ibufLen => 7
  | .poff => 8 | .plen => 9 | .obufLen => 10 | .crc => 11 | .explen => 12 | .vcount => 13 | .config => 14

/-- The offset of a register (10_state section 2). -/
def Reg.offset (r : Reg) : Word := BitVec.ofNat 32 (4 * r.index)

/-- R71: the register with a given number. -/
def regAt : Nat → Option Reg
  | 0 => some .cmd | 1 => some .status | 2 => some .func | 3 => some .devAddr | 4 => some .start | 5 => some .qty
  | 6 => some .count | 7 => some .ibufLen | 8 => some .poff | 9 => some .plen | 10 => some .obufLen | 11 => some .crc
  | 12 => some .explen | 13 => some .vcount | 14 => some .config | _ => none

/-- x[NAME] as the host sees it: 32 bits, reserved bits 0 (R31, R76). -/
def State.readReg (s : State) : Reg → Word
  | .cmd => s.cmd
  | .status => s.status.code.setWidth 32
  | .func => s.func.setWidth 32
  | .devAddr => s.devAddr
  | .start => s.start
  | .qty => s.qty
  | .count => s.count
  | .ibufLen => s.ibufLen.setWidth 32
  | .poff => s.poff.setWidth 32
  | .plen => s.plen.setWidth 32
  | .obufLen => s.obufLen.setWidth 32
  | .crc => s.crc.setWidth 32
  | .explen => s.explen
  | .vcount => s.vcount
  | .config => configWord s.params

/-- 10_state section 2: which registers the host may write. -/
def Reg.hostWritable : Reg → Bool
  | .cmd | .func | .devAddr | .start | .qty | .count | .ibufLen | .poff | .plen => true
  | .status | .obufLen | .crc | .explen | .vcount | .config => false

/-- R77: a host write of a register keeps the bits of its keep mask. A read-only register takes none (R31); the bus
has refused such a write before (R78). -/
def State.writeReg (s : State) (r : Reg) (v : Word) : State :=
  match r with
  | .cmd => { s with cmd := v }
  | .func => { s with func := v.setWidth 8 }
  | .devAddr => { s with devAddr := v }
  | .start => { s with start := v }
  | .qty => { s with qty := v }
  | .count => { s with count := v }
  | .ibufLen => { s with ibufLen := v.setWidth 16 }
  | .poff => { s with poff := v.setWidth 16 }
  | .plen => { s with plen := v.setWidth 16 }
  | .status | .obufLen | .crc | .explen | .vcount | .config => s

/-- R77: a host byte write makes IBUF[i] hold that byte. -/
def State.writeIbuf (s : State) (i : Nat) (b : Byte) : State := { s with ibuf := Memory.write s.ibuf i b }

/-- A command's result in OBUF (R51): the bytes from index 0, the rest no value, with OBUF_LEN and CRC beside them. -/
def State.putObuf (s : State) (bytes : List Byte) (c : Half) : State :=
  { s with crc := c, obuf := Memory.ofList bytes, obufLen := BitVec.ofNat 4 bytes.length }

/-- A decode's result (R52): entries 0 to n-1, the rest no value, and VCOUNT = n. -/
def State.putValues (s : State) (vs : List Value) : State :=
  { s with values := Memory.ofList vs, vcount := BitVec.ofNat 32 vs.length }

/-! ### The host's side -/

/-- The state with another list of host moves to come. -/
def State.setMoves (s : State) (ms : List Move) : State := { s with host := { s.host with moves := ms } }

/-! ### Reset -/

/-- R310: the reset input sets every register to its reset value and makes every buffer location hold no value; the
parameters stay. The host's side is not the engine's and stays (log 7). -/
def State.hwReset (s : State) : State := { State.resetFor s.params with host := s.host }

end Sys2Proof.Machine
end

