-- ==== Sys2Proof/Machine/Flags.lean ====
section
/-! DEFINITION. The engine's only condition state, STATUS (10_state R49), and the one way a command ends: a failure
(60_exceptions R280, R282) or a success (00_scope R19). The engine has no trap and no return from one (R280, R297). -/

namespace Sys2Proof.Machine

/-- `raise Status(c)`: the command ends with the code in STATUS and no other state change (R19, R282). -/
def raise (c : Status) (s : State) : Host.Outcome State Fault Refusal := .next { s with status := c }

/-- `finish()`: the command ends with STATUS = OK after the writes made before it (R19). -/
def finish (s : State) : Host.Outcome State Fault Refusal := .next { s with status := .ok }

end Sys2Proof.Machine
end

