-- ==== Sys2Proof/Machine/Operands.lean ====
section
/-! DEFINITION. Operand assembly: selectors (30_encoding R103, R104), the input bytes of a command (10_state R60), the
payload window (43_decoder R190) and chunks (R200). -/

namespace Sys2Proof.Machine

/-- R17: the big-endian unsigned value of a byte sequence; 0 for the empty one. -/
def be (bytes : List Byte) : Nat := bytes.foldl (fun acc b => acc * 256 + b.toNat) 0

/-- R103: bytes per value of a width code (WSEL 3 never reaches an operand). -/
def chunkBytes (wsel : Nat) : Nat :=
  match wsel with
  | 0 => 2
  | 1 => 4
  | _ => 8

/-- R103: registers per value of a width code. -/
def regsPerValue (wsel : Nat) : Nat :=
  match wsel with
  | 0 => 1
  | 1 => 2
  | _ => 4

/-- A command's read of IBUF[o : o+n] at the step of its rule that checks the range: the first byte that holds no value
faults (R60); otherwise the command goes on with the bytes. -/
def withBytes (s : State) (o n : Nat) (k : List Byte → Host.Outcome State Fault Refusal) :
    Host.Outcome State Fault Refusal :=
  match Memory.readRange s.ibuf o n with
  | .error i => .fault (.unwritten (.ibuf i))
  | .ok bytes => k bytes

/-- R133, R172, R190: the check that IBUF_LEN does not exceed IBUF_SIZE, made before anything is read. -/
def withLength (s : State) (k : Nat → Host.Outcome State Fault Refusal) : Host.Outcome State Fault Refusal :=
  if s.ibufLen.toNat > s.params.size then raise .bufferBounds s else k s.ibufLen.toNat

/-- R190 `window()`: an empty window is in bounds for any POFF. -/
def withWindow (s : State) (k : Nat → Nat → Host.Outcome State Fault Refusal) : Host.Outcome State Fault Refusal :=
  withLength s fun n =>
    if s.plen.toNat > 0 ∧ s.poff.toNat + s.plen.toNat > n then raise .bufferBounds s
    else k s.poff.toNat s.plen.toNat

/-- R200: chunk j of width W. -/
def chunk (W : Nat) (p : List Byte) (j : Nat) : List Byte := (p.drop (j * W)).take W

/-- R201, R210: the 64-bit entry of one chunk, its 8W-bit big-endian value sign- or zero-extended. -/
def chunkValue (W : Nat) (sgn : Bool) (bytes : List Byte) : Value :=
  let u : BitVec (8 * W) := BitVec.ofNat (8 * W) (be bytes)
  if sgn then u.signExtend 64 else u.setWidth 64

/-- R200: the c values of a payload, in payload order. -/
def chunkValues (W : Nat) (sgn : Bool) (c : Nat) (p : List Byte) : List Value :=
  (List.range c).map fun j => chunkValue W sgn (chunk W p j)

end Sys2Proof.Machine
end

