-- ==== Sys2Proof/Machine/Crc.lean ====
section
/-! DEFINITION. The CRC-16 unit (40_crc R130, R131) and the CRC16 command (R133). -/

namespace Sys2Proof.Machine

/-- One of the eight bit steps of R130: bit 0 is tested before the shift, 0xA001 is XORed after it. -/
def crcBitStep (r : Half) : Half :=
  if r.getLsbD 0 then (r >>> (1 : Nat)) ^^^ 0xA001 else r >>> (1 : Nat)

/-- `n` bit steps. -/
def crcSteps : Nat → Half → Half
  | 0, r => r
  | n + 1, r => crcSteps n (crcBitStep r)

/-- R130: the register after one more input byte. -/
def crcByte (r : Half) (b : Byte) : Half := crcSteps 8 (r ^^^ b.setWidth 16)

/-- R130 from a given register value. -/
def crcFrom (r : Half) (bytes : List Byte) : Half := bytes.foldl crcByte r

/-- R130: `crc16(s)`. -/
def crc16 (bytes : List Byte) : Half := crcFrom 0xFFFF bytes

/-- R131: the two bytes of a CRC value in wire order, low byte first. -/
def crcWire (c : Half) : List Byte := [loByte c, hiByte c]

/-- R131: `crcbytes(s)`. -/
def crcBytes (bytes : List Byte) : List Byte := crcWire (crc16 bytes)

/-- CRC16 (R133). -/
def execCrc16 (s : State) : Host.Outcome State Fault Refusal :=
  withLength s fun n =>
    withBytes s 0 n fun bytes =>
      finish (s.putObuf (crcBytes bytes) (crc16 bytes))

end Sys2Proof.Machine
end

