-- ==== Sys2Proof/Machine/Decoder.lean ====
section
/-! DEFINITION. The register decoder: DECODE_BITS, DECODE_INT, DECODE_FLOAT (43_decoder). -/

namespace Sys2Proof.Machine

/-! ### Bits -/

/-- R192: the bit length k of v, the least k with v < 2^k, for v > 0. -/
def bitLength (v : Nat) : Nat := Nat.log2 v + 1

/-- R192 `digits(p)`: the binary expansion of be(p), most significant digit first, without leading zeros; the one digit
0 when be(p) = 0. -/
def digits (p : List Byte) : List Bool :=
  if be p = 0 then [false]
  else (List.range (bitLength (be p))).map fun j => (be p).testBit (bitLength (be p) - 1 - j)

/-- R193 `padded(p, c)`: zeros prepended up to 8·ceil(c/8) digits, then the first c digits. -/
def padded (p : List Byte) (c : Nat) : List Bool :=
  (List.replicate (8 * ((c + 7) / 8) - (digits p).length) false ++ digits p).take c

/-- R53: the entry of one bit. -/
def bitValue (b : Bool) : Value := if b then 1 else 0

/-- DECODE_BITS (R191), both modes. -/
def execDecodeBits (s : State) : Host.Outcome State Fault Refusal :=
  withWindow s fun o l =>
    match s.params.bitMode with
    | .asObserved => withBytes s o l fun p => finish (s.putValues ((digits p).map bitValue))
    | .padded =>
      if s.count.toNat > s.params.vcap then raise .bufferBounds s
      else withBytes s o l fun p => finish (s.putValues ((padded p s.count.toNat).map bitValue))

/-! ### Integers and floats -/

/-- The shared body of R201 and R210: the window, PLEN = COUNT·W exactly (R208), the read, one entry per chunk. -/
def decodeChunks (W : Nat) (sgn : Bool) (s : State) : Host.Outcome State Fault Refusal :=
  withWindow s fun o l =>
    if l ≠ s.count.toNat * W then raise .payloadLength s
    else withBytes s o l fun p => finish (s.putValues (chunkValues W sgn s.count.toNat p))

/-- DECODE_INT.U16 (R202). -/
def execDecodeIntU16 (s : State) : Host.Outcome State Fault Refusal := decodeChunks (chunkBytes 0) false s

/-- DECODE_INT.S16 (R203). -/
def execDecodeIntS16 (s : State) : Host.Outcome State Fault Refusal := decodeChunks (chunkBytes 0) true s

/-- DECODE_INT.U32 (R204). -/
def execDecodeIntU32 (s : State) : Host.Outcome State Fault Refusal := decodeChunks (chunkBytes 1) false s

/-- DECODE_INT.S32 (R205). -/
def execDecodeIntS32 (s : State) : Host.Outcome State Fault Refusal := decodeChunks (chunkBytes 1) true s

/-- DECODE_INT.U64 (R206). -/
def execDecodeIntU64 (s : State) : Host.Outcome State Fault Refusal := decodeChunks (chunkBytes 2) false s

/-- DECODE_INT.S64 (R207). -/
def execDecodeIntS64 (s : State) : Host.Outcome State Fault Refusal := decodeChunks (chunkBytes 2) true s

/-- DECODE_FLOAT.F32 (R211): the binary32 pattern, zero-extended. -/
def execDecodeFloatF32 (s : State) : Host.Outcome State Fault Refusal := decodeChunks (chunkBytes 1) false s

/-- DECODE_FLOAT.F64 (R212): the binary64 pattern. -/
def execDecodeFloatF64 (s : State) : Host.Outcome State Fault Refusal := decodeChunks (chunkBytes 2) false s

end Sys2Proof.Machine
end

