-- ==== Sys2Proof/Machine/Encoder.lean ====
section
/-! DEFINITION. The frame encoder and the BUILD_REQ command (41_encoder). -/

namespace Sys2Proof.Machine

/-- R150: bytes 0 to 5 of the request frame. -/
def requestBody (addr fn : Byte) (start qty : Half) : List Byte := [addr, fn] ++ be16 start ++ be16 qty

/-- R150: the request frame, its CRC computed over bytes 0 to 5. -/
def requestFrame (addr fn : Byte) (start qty : Half) : List Byte :=
  requestBody addr fn start qty ++ crcBytes (requestBody addr fn start qty)

/-- BUILD_REQ (R152): the address check comes first (R157), then the 16-bit range check (R153). -/
def execBuildReq (s : State) : Host.Outcome State Fault Refusal :=
  if s.devAddr.toInt < 0 ∨ s.devAddr.toInt > 255 then raise .invalidAddress s
  else if s.start.toNat > 0xFFFF ∨ s.qty.toNat > 0xFFFF then raise .fieldRange s
  else
    let addr : Byte := s.devAddr.setWidth 8
    let start : Half := s.start.setWidth 16
    let qty : Half := s.qty.setWidth 16
    finish (s.putObuf (requestFrame addr s.func start qty) (crc16 (requestBody addr s.func start qty)))

end Sys2Proof.Machine
end

