-- ==== Sys2Proof/Machine/Framer.lean ====
section
/-! DEFINITION. The request framer and the PLAN command (44_framer). -/

namespace Sys2Proof.Machine

/-- R232: the expected response length of a register count. -/
def expectedLength (q : Nat) : Nat := q * 2 + 5

/-- The shared body of R233 for a function code and a number of registers per value: q = COUNT·RPV is computed without
overflow, then its 16-bit range is checked (R238). -/
def plan (fn : Byte) (rpv : Nat) (s : State) : Host.Outcome State Fault Refusal :=
  let q := s.count.toNat * rpv
  if q > 0xFFFF then raise .fieldRange s
  else finish { s with func := fn, qty := BitVec.ofNat 32 q, explen := BitVec.ofNat 32 (expectedLength q) }

/-- PLAN.COILS (R234): function code 0x01, regs_amount = count (R231). -/
def execPlanCoils (s : State) : Host.Outcome State Fault Refusal := plan 0x01 1 s

/-- PLAN.DISCRETE (R235): function code 0x02, regs_amount = count (R231). -/
def execPlanDiscrete (s : State) : Host.Outcome State Fault Refusal := plan 0x02 1 s

/-- PLAN.INT16 (R236). -/
def execPlanInt16 (s : State) : Host.Outcome State Fault Refusal := plan 0x03 (regsPerValue 0) s

/-- PLAN.INT32 (R236). -/
def execPlanInt32 (s : State) : Host.Outcome State Fault Refusal := plan 0x03 (regsPerValue 1) s

/-- PLAN.INT64 (R236). -/
def execPlanInt64 (s : State) : Host.Outcome State Fault Refusal := plan 0x03 (regsPerValue 2) s

/-- PLAN.FLOAT32 (R237). -/
def execPlanFloat32 (s : State) : Host.Outcome State Fault Refusal := plan 0x03 (regsPerValue 1) s

/-- PLAN.FLOAT64 (R237). -/
def execPlanFloat64 (s : State) : Host.Outcome State Fault Refusal := plan 0x03 (regsPerValue 2) s

end Sys2Proof.Machine
end

