-- ==== Sys2Proof/Machine/Validator.lean ====
section
/-! DEFINITION. The response validator, the payload framer and the VALIDATE command (42_validator). -/

namespace Sys2Proof.Machine

/-- R174: the CRC bytes of all but the last two bytes are the last two bytes. -/
def crcAgrees (bytes : List Byte) : Bool :=
  crcBytes (bytes.take (bytes.length - 2)) == bytes.drop (bytes.length - 2)

/-- VALIDATE (R172): BufferBounds, NoResponse, the read, CrcMismatch (a single byte always, R174), UnexpectedFunction,
then the payload window POFF = 3, PLEN = max(0, n - 5) (R176). -/
def execValidate (s : State) : Host.Outcome State Fault Refusal :=
  withLength s fun n =>
    if n = 0 then raise .noResponse s
    else
      withBytes s 0 n fun bytes =>
        if n = 1 then raise .crcMismatch s
        else if crcAgrees bytes = false then raise .crcMismatch s
        else if bytes[1]? ≠ some s.func then raise .unexpectedFunction s
        else finish { s with poff := 3, plen := BitVec.ofNat 16 (n - 5) }

end Sys2Proof.Machine
end

