-- ==== Sys2Proof/Machine/Dispatch.lean ====
section
/-! DEFINITION. The command an accepted word runs (30_encoding R105), one arm per instruction. -/

namespace Sys2Proof.Machine

def exec (i : Instr) (s : State) : Host.Outcome State Fault Refusal :=
  match i with
  | .crc16 => Sys2Proof.Machine.execCrc16 s
  | .buildReq => Sys2Proof.Machine.execBuildReq s
  | .validate => Sys2Proof.Machine.execValidate s
  | .decodeBits => Sys2Proof.Machine.execDecodeBits s
  | .decodeIntU16 => Sys2Proof.Machine.execDecodeIntU16 s
  | .decodeIntS16 => Sys2Proof.Machine.execDecodeIntS16 s
  | .decodeIntU32 => Sys2Proof.Machine.execDecodeIntU32 s
  | .decodeIntS32 => Sys2Proof.Machine.execDecodeIntS32 s
  | .decodeIntU64 => Sys2Proof.Machine.execDecodeIntU64 s
  | .decodeIntS64 => Sys2Proof.Machine.execDecodeIntS64 s
  | .decodeFloatF32 => Sys2Proof.Machine.execDecodeFloatF32 s
  | .decodeFloatF64 => Sys2Proof.Machine.execDecodeFloatF64 s
  | .planCoils => Sys2Proof.Machine.execPlanCoils s
  | .planDiscrete => Sys2Proof.Machine.execPlanDiscrete s
  | .planInt16 => Sys2Proof.Machine.execPlanInt16 s
  | .planInt32 => Sys2Proof.Machine.execPlanInt32 s
  | .planInt64 => Sys2Proof.Machine.execPlanInt64 s
  | .planFloat32 => Sys2Proof.Machine.execPlanFloat32 s
  | .planFloat64 => Sys2Proof.Machine.execPlanFloat64 s

end Sys2Proof.Machine
end

