-- ==== Sys2Proof/Machine/Bus.lean ====
section
/-! DEFINITION. The host address space (20_memory R70 to R75), the host's reads and writes (R76 to R78), and a command
started by a CMD write (30_encoding R101). Addresses here are offsets from ENGINE_BASE. -/

namespace Sys2Proof.Machine

/-- What an offset selects (R70). -/
inductive Loc where
  | reg (r : Reg)
  | ibuf (i : Nat)
  | obuf (i : Nat)
  | valueWord (j : Nat)
deriving DecidableEq, Repr

/-- R70: the first offset of IBUF. -/
def ibufBase : Nat := 0x00010000

/-- R70: the first offset of OBUF. -/
def obufBase : Nat := 0x00020000

/-- R70: the first offset of VALUES. -/
def valuesBase : Nat := 0x01000000

/-- R71 to R75: the element at an offset, none where the offset is unmapped or, in a region of words, not a multiple of
4 (R82). -/
def locate (p : Params) (off : Word) : Option Loc :=
  if off.toNat < 0x3C then
    if off.toNat % 4 = 0 then (regAt (off.toNat / 4)).map Loc.reg else none
  else if ibufBase ≤ off.toNat ∧ off.toNat < ibufBase + p.size then some (.ibuf (off.toNat - ibufBase))
  else if obufBase ≤ off.toNat ∧ off.toNat < obufBase + obufSize then some (.obuf (off.toNat - obufBase))
  else if valuesBase ≤ off.toNat ∧ off.toNat < valuesBase + 8 * p.vcap then
    if (off.toNat - valuesBase) % 4 = 0 then some (.valueWord ((off.toNat - valuesBase) / 4)) else none
  else none

/-- R84: the one access width, in bytes, that an element accepts. -/
def Loc.width : Loc → Nat
  | .reg _ => 4
  | .ibuf _ => 1
  | .obuf _ => 1
  | .valueWord _ => 4

/-- R78: the element an access of n bytes reaches, none where the access is not accepted. -/
def accepted (p : Params) (off : Word) (n : Nat) : Option Loc :=
  match locate p off with
  | none => none
  | some l => if n = l.width then some l else none

/-- R76: the data of a location that holds a value; a location that holds none faults (R60). -/
def readLoc (s : State) : Loc → Except Fault Word
  | .reg r => .ok (s.readReg r)
  | .ibuf i =>
    match Memory.read s.ibuf i with
    | none => .error (.unwritten (.ibuf i))
    | some b => .ok (b.setWidth 32)
  | .obuf i =>
    match Memory.read s.obuf i with
    | none => .error (.unwritten (.obuf i))
    | some b => .ok (b.setWidth 32)
  | .valueWord j =>
    match Memory.read s.values (j / 2) with
    | none => .error (.unwritten (.values (j / 2)))
    | some v => .ok (if j % 2 = 0 then v.extractLsb' 0 32 else v.extractLsb' 32 32)

/-- MemRead(off, n) by the host (R76). It changes nothing (R85). -/
def memRead (s : State) (off : Word) (n : Nat) : Except Fault Word :=
  match accepted s.params off n with
  | none => .error (.busError off)
  | some l => readLoc s l

/-- R101: the command word is decoded and the selected command runs; a rejected word raises its status. -/
def execute (w : Word) (s : State) : Host.Outcome State Fault Refusal :=
  match decode w with
  | .error .illegalCommand => raise .illegalCommand s
  | .error .invalidFormat => raise .invalidFormat s
  | .ok i => exec i s

/-- MemWrite(off, n, v) by the host (R77). A CMD write stores the word and runs it (R32); a read-only place takes no
write (R78). -/
def memWrite (s : State) (off : Word) (n : Nat) (v : Word) : Host.Outcome State Fault Refusal :=
  match accepted s.params off n with
  | some (.reg .cmd) => execute v (s.writeReg .cmd v)
  | some (.reg r) => if r.hostWritable then .next (s.writeReg r v) else .fault (.busError off)
  | some (.ibuf i) => .next (s.writeIbuf i (v.setWidth 8))
  | some (.obuf _) => .fault (.busError off)
  | some (.valueWord _) => .fault (.busError off)
  | none => .fault (.busError off)

end Sys2Proof.Machine
end

