-- ==== Sys2Proof/Machine/HostAgent.lean ====
section
/-! DEFINITION. The host's side: statements (30_encoding R110, R111), the transport calls and the expansion of the four
read operations (45_host_pipeline). One move is one step (log 6). -/

namespace Sys2Proof.Machine

/-! ### Platform addresses and statements -/

/-- R70: the platform address of an offset. DESIGN CHOICE (log 5): the sum wraps at 32 bits. -/
def busAddr (p : Params) (off : Word) : Word := p.engineBase + off

/-- R70: the offset of a platform address. -/
def busOffset (p : Params) (addr : Word) : Word := addr - p.engineBase

/-- R111: RD <REG>. -/
def moveRd (p : Params) (r : Reg) : Move := .busRead (busAddr p r.offset) 4

/-- R111: WR <REG>, v. -/
def moveWr (p : Params) (r : Reg) (v : Word) : Move := .busWrite (busAddr p r.offset) 4 v

/-- R111: WRB IBUF[i], b. DESIGN CHOICE, unsafe (log 17): an index whose offset passes 32 bits wraps. -/
def moveWrb (p : Params) (i : Nat) (b : Byte) : Move :=
  .busWrite (busAddr p (BitVec.ofNat 32 (ibufBase + i))) 1 (b.setWidth 32)

/-- R111: RDB OBUF[i]. DESIGN CHOICE, unsafe (log 17): an index whose offset passes 32 bits wraps. -/
def moveRdb (p : Params) (i : Nat) : Move := .busRead (busAddr p (BitVec.ofNat 32 (obufBase + i))) 1

/-- R110: CMD with a raw word. -/
def moveCmd (p : Params) (w : Word) : Move := moveWr p .cmd w

/-- The byte writes of LOADRESP from index i on (R111). -/
def loadMovesFrom (p : Params) : Nat → List Byte → List Move
  | _, [] => []
  | i, b :: bs => moveWrb p i b :: loadMovesFrom p (i + 1) bs

/-- R111: LOADRESP b0 b1 … is the byte writes and then WR IBUF_LEN, n. -/
def loadMoves (p : Params) (bytes : List Byte) : List Move :=
  loadMovesFrom p 0 bytes ++ [moveWr p .ibufLen (BitVec.ofNat 32 bytes.length)]

/-! ### The read operations -/

/-- R262: an argument that has a 32-bit form. -/
def hasWordForm (i : Int) : Bool := decide (-(2 ^ 31) ≤ i) && decide (i < 2 ^ 32)

/-- The dev, start and count of an operation. -/
def ReadOp.args : ReadOp → Int × Int × Int
  | .coils d st c => (d, st, c)
  | .discreteInputs d st c => (d, st, c)
  | .ints d st c _ _ => (d, st, c)
  | .floats d st c _ => (d, st, c)

/-- R262: whether the operation is run at all. -/
def ReadOp.runnable (op : ReadOp) : Bool :=
  hasWordForm op.args.1 && hasWordForm op.args.2.1 && hasWordForm op.args.2.2

/-- R251 step 2, R252: the PLAN word; an unrecognised selector is WSEL = 3. -/
def ReadOp.planWord : ReadOp → Word
  | .coils _ _ _ => encode .planCoils
  | .discreteInputs _ _ _ => encode .planDiscrete
  | .ints _ _ _ (some .w16) _ => encode .planInt16
  | .ints _ _ _ (some .w32) _ => encode .planInt32
  | .ints _ _ _ (some .w64) _ => encode .planInt64
  | .ints _ _ _ none _ => 0x00000137
  | .floats _ _ _ (some .f32) => encode .planFloat32
  | .floats _ _ _ (some .f64) => encode .planFloat64
  | .floats _ _ _ none => 0x000001B7

/-- R251 step 14, R252: the decode word; an unrecognised selector is WSEL = 3 (never reached: step 3 has failed). -/
def ReadOp.decodeWord : ReadOp → Word
  | .coils _ _ _ => encode .decodeBits
  | .discreteInputs _ _ _ => encode .decodeBits
  | .ints _ _ _ (some .w16) false => encode .decodeIntU16
  | .ints _ _ _ (some .w16) true => encode .decodeIntS16
  | .ints _ _ _ (some .w32) false => encode .decodeIntU32
  | .ints _ _ _ (some .w32) true => encode .decodeIntS32
  | .ints _ _ _ (some .w64) false => encode .decodeIntU64
  | .ints _ _ _ (some .w64) true => encode .decodeIntS64
  | .ints _ _ _ none false => 0x00000035
  | .ints _ _ _ none true => 0x00000075
  | .floats _ _ _ (some .f32) => encode .decodeFloatF32
  | .floats _ _ _ (some .f64) => encode .decodeFloatF64
  | .floats _ _ _ none => 0x00000036

/-- R251: the sixteen steps of an operation. -/
def ReadOp.expand (p : Params) (echo : Bool) (op : ReadOp) : List Move :=
  [ moveWr p .count (BitVec.ofInt 32 op.args.2.2)
  , moveCmd p op.planWord
  , .failUnlessOk
  , moveWr p .devAddr (BitVec.ofInt 32 op.args.1)
  , moveWr p .start (BitVec.ofInt 32 op.args.2.1)
  , moveCmd p (encode .buildReq)
  , .failUnlessOk
  , .xmit ]
  ++ (if echo then [.recvDiscard 8] else [])
  ++ [ .recvExpected
     , .loadReceived
     , moveCmd p (encode .validate)
     , .failUnlessOk
     , moveCmd p op.decodeWord
     , .failUnlessOk
     , .readValues ]

/-! ### The host's steps -/

/-- The host's side changed, the engine untouched. -/
def State.setHost (s : State) (h : HostSide) : State := { s with host := h }

/-- The given moves come before the ones still to come. -/
def pushMoves (ms : List Move) (s : State) : State := s.setMoves (ms ++ s.host.moves)

/-- R257, R325: the host's program ends with an outcome; a reset the platform has still to assert is not the host's and
stays (log 8). -/
def endProgram (o : HostOutcome) (s : State) : State :=
  s.setHost { s.host with outcome := o, moves := s.host.moves.filter (fun m => m == Move.platformReset) }

/-- A host read at an offset given as a number; one beyond 32 bits selects nothing (R75). DESIGN CHOICE (log 15): it is a
BusError that carries the low 32 bits. -/
def readAt (s : State) (off n : Nat) : Except Fault Word :=
  if off < 2 ^ 32 then memRead s (BitVec.ofNat 32 off) n else .error (.busError (BitVec.ofNat 32 off))

/-- R111: RDV i reads both words of VALUES[i], low word first. -/
def readEntry (s : State) (i : Nat) : Except Fault Value :=
  match readAt s (valuesBase + 8 * i) 4 with
  | .error f => .error f
  | .ok lo =>
    match readAt s (valuesBase + 8 * i + 4) 4 with
    | .error f => .error f
    | .ok hi => .ok (hi ++ lo)

/-- Host reads of OBUF[i], …, n of them (R253). -/
def readFrame (s : State) : Nat → Nat → Except Fault (List Byte)
  | _, 0 => .ok []
  | i, n + 1 =>
    match readAt s (obufBase + i) 1 with
    | .error f => .error f
    | .ok b =>
      match readFrame s (i + 1) n with
      | .error f => .error f
      | .ok bs => .ok (b.setWidth 8 :: bs)

/-- R253: the frame has been handed to the transport's write, which timed out or not. -/
def afterWrite (frame : List Byte) (timedOut : Bool) (s : State) : State :=
  let s' := s.setHost { s.host with sent := s.host.sent ++ [frame], writeCalls := s.host.writeCalls + 1 }
  if timedOut then endProgram .writeTimeout s' else s'

/-- R254: one read call whose bytes the host keeps. -/
def afterRead (n : Nat) (draw : List Byte) (s : State) : State :=
  s.setHost { s.host with received := draw.take n, readCalls := s.host.readCalls + 1 }

/-- R256: one read call whose bytes are discarded. -/
def afterDiscard (s : State) : State := s.setHost { s.host with readCalls := s.host.readCalls + 1 }

/-- XMIT (R253). -/
def runXmit (s : State) : Host.Outcome State Fault Refusal :=
  match memRead s Reg.obufLen.offset 4 with
  | .error f => .fault f
  | .ok len =>
    match readFrame s 0 len.toNat with
    | .error f => .fault f
    | .ok frame => .next (afterWrite frame (Config.txTimesOut s.host.writeCalls) s)

/-- RECV n (R254): the bytes are a free draw. -/
def runRecv (n : Nat) (s : State) : Host.Outcome State Fault Refusal :=
  .next (afterRead n (Config.rxBytes s.host.readCalls) s)

/-- Step 10 of R251: RECV min(x[EXPLEN], IBUF_SIZE), IBUF_SIZE learnt from CONFIG (R314). -/
def runRecvExpected (s : State) : Host.Outcome State Fault Refusal :=
  match memRead s Reg.explen.offset 4 with
  | .error f => .fault f
  | .ok len =>
    match memRead s Reg.config.offset 4 with
    | .error f => .fault f
    | .ok cfg => runRecv (min len.toNat (cfg.extractLsb' 0 16).toNat) s

/-- IF STATUS != OK: FAIL (R111): the operation ends with the status read. -/
def runFailUnlessOk (s : State) : Host.Outcome State Fault Refusal :=
  match memRead s Reg.status.offset 4 with
  | .error f => .fault f
  | .ok code => if code = 0 then .next s else .next (endProgram (.failed code) s)

/-- RDV i (R111). -/
def runReadValue (i : Nat) (s : State) : Host.Outcome State Fault Refusal :=
  match readEntry s i with
  | .error f => .fault f
  | .ok v => .next (s.setHost { s.host with results := s.host.results ++ [v] })

/-- Step 16 of R251: VALUES[0 .. x[VCOUNT]-1] are read, then the operation ends. -/
def runReadValues (s : State) : Host.Outcome State Fault Refusal :=
  match memRead s Reg.vcount.offset 4 with
  | .error f => .fault f
  | .ok n => .next (pushMoves ((List.range n.toNat).map Move.readValue ++ [.succeed]) s)

/-- A pseudo-operation (R112) starts: it is replaced by its steps; one whose arguments have no 32-bit form is not run
(R262). -/
def runReadOp (op : ReadOp) (s : State) : Host.Outcome State Fault Refusal :=
  if op.runnable then
    .next (pushMoves (op.expand s.params s.host.echo)
      (s.setHost { s.host with results := [], outcome := .running }))
  else .refused .noThirtyTwoBitForm

/-- A bus read (R76): the data reaches the host. -/
def runBusRead (addr : Word) (n : Nat) (s : State) : Host.Outcome State Fault Refusal :=
  match memRead s (busOffset s.params addr) n with
  | .error f => .fault f
  | .ok v => .next (s.setHost { s.host with readData := some v })

/-- One move of the outside world, the move already taken off the list. -/
def runMove (m : Move) (s : State) : Host.Outcome State Fault Refusal :=
  match m with
  | .busRead addr n => runBusRead addr n s
  | .busWrite addr n v => memWrite s (busOffset s.params addr) n v
  | .readValue i => runReadValue i s
  | .loadResp bytes => .next (pushMoves (loadMoves s.params bytes) s)
  | .loadReceived => .next (pushMoves (loadMoves s.params s.host.received) s)
  | .xmit => runXmit s
  | .recv n => runRecv n s
  | .recvDiscard _ => .next (afterDiscard s)
  | .recvExpected => runRecvExpected s
  | .failUnlessOk => runFailUnlessOk s
  | .readValues => runReadValues s
  | .succeed => .next (s.setHost { s.host with outcome := .success s.host.results })
  | .readOp op => runReadOp op s
  | .platformReset => .next s.hwReset

end Sys2Proof.Machine
end

