-- ==== Sys2Proof/Machine/Step.lean ====
section
/-! DEFINITION. One step of the machine: the next move of the outside world, which for a CMD write runs one command to
completion (10_state R30, R32, 70_reset_and_hazards R320). -/

namespace Sys2Proof.Machine

/-- With no move left the engine holds its state and does nothing (60_exceptions R304, R311; log 9). -/
def step (s : State) : Host.Outcome State Fault Refusal :=
  match s.host.moves with
  | [] => .next s
  | m :: rest => runMove m (s.setMoves rest)

/-- The engine fetches nothing (R48): the next instruction is the word of the next CMD write. The state in which the
host's next move is the CMD write of that word (log 2). -/
def State.withFetchWord (s : State) (nbits w : Nat) : State :=
  s.setMoves (moveCmd s.params (tableWord nbits w) :: s.host.moves)

end Sys2Proof.Machine
end

