-- ==== Sys2Proof/Safety.lean ====
section
/-! DEFINITION. What a safe state is, in the terms the statements use: buffers in canonical form, results that agree
with their length registers, and the predicates a statement about a command's input needs. -/

namespace Sys2Proof

open Machine

/-- The locations o, o+1, … of a buffer hold the given elements. -/
abbrev Holds {α : Type} (m : List (Nat × α)) (o : Nat) (vs : List α) : Prop :=
  ∀ i, i < vs.length → Memory.read m (o + i) = vs[i]?

/-- Location k is the first of o, …, o+n-1 that holds no value (R60). -/
abbrev FirstUnwritten {α : Type} (m : List (Nat × α)) (o n k : Nat) : Prop :=
  o ≤ k ∧ k < o + n ∧ Memory.read m k = none ∧ ∀ i, i < k → o ≤ i → Memory.read m i ≠ none

/-- IBUF_LEN is in range (R39). -/
abbrev LengthInBounds (s : State) : Prop := s.ibufLen.toNat ≤ s.params.size

/-- The payload window is in bounds (R190): an empty one always is. -/
abbrev WindowInBounds (s : State) : Prop :=
  LengthInBounds s ∧ (s.plen.toNat > 0 → s.poff.toNat + s.plen.toNat ≤ s.ibufLen.toNat)

/-- The payload window is in bounds and holds exactly the bytes `p`. -/
abbrev WindowHolds (s : State) (p : List Byte) : Prop :=
  WindowInBounds s ∧ p.length = s.plen.toNat ∧ Holds s.ibuf s.poff.toNat p

/-- IBUF[0 : IBUF_LEN] is in bounds and holds exactly the bytes `f`. -/
abbrev InputHolds (s : State) (f : List Byte) : Prop :=
  LengthInBounds s ∧ f.length = s.ibufLen.toNat ∧ Holds s.ibuf 0 f

/-- The parameters are permitted ones (R9) and every buffer is in canonical form inside its region (R50 to R52). -/
abbrev Canonical (s : State) : Prop :=
  s.params.wf = true ∧ Memory.wf s.params.size s.ibuf = true ∧ Memory.wf obufSize s.obuf = true ∧
    Memory.wf s.params.vcap s.values = true

/-- R42, R43, R51: OBUF_LEN is 0, 2 or 8, exactly OBUF[0 : OBUF_LEN] holds values, and a result in OBUF ends with the
wire bytes of CRC. -/
def ObufAgrees (s : State) : Prop :=
  (s.obufLen = 0 ∨ s.obufLen = 2 ∨ s.obufLen = 8) ∧
  (∀ i, (Memory.read s.obuf i).isSome = decide (i < s.obufLen.toNat)) ∧
  (s.obufLen ≠ 0 →
    Memory.read s.obuf (s.obufLen.toNat - 2) = some (loByte s.crc) ∧
    Memory.read s.obuf (s.obufLen.toNat - 1) = some (hiByte s.crc))

/-- R45, R52: exactly VALUES[0 : VCOUNT] holds values, and VCOUNT is at most VCAP. -/
def ValuesAgree (s : State) : Prop :=
  s.vcount.toNat ≤ s.params.vcap ∧ ∀ e, (Memory.read s.values e).isSome = decide (e < s.vcount.toNat)

/-- R44, R232: EXPLEN is its reset value or the expected length of a 16-bit register count. -/
def ExplenAgrees (s : State) : Prop :=
  s.explen = 0 ∨ ∃ q, q ≤ 0xFFFF ∧ s.explen.toNat = q * 2 + 5

/-- The invariant of the machine. -/
def Safe (s : State) : Prop := Canonical s ∧ ObufAgrees s ∧ ValuesAgree s ∧ ExplenAgrees s

/-- R17: the big-endian value of a byte sequence, the sum of s[i]·256^(len-1-i). -/
def bigEndian : List Byte → Nat
  | [] => 0
  | b :: bs => b.toNat * 256 ^ bs.length + bigEndian bs

/-- R16: the signed integer whose N-bit two's complement pattern is v. -/
def tc (N v : Nat) : Int := if v < 2 ^ (N - 1) then (v : Int) else (v : Int) - 2 ^ N

/-- The value of a digit sequence, most significant digit first. -/
def digitsValue (ds : List Bool) : Nat := ds.foldl (fun acc d => acc * 2 + d.toNat) 0

/-- A frame with bit p flipped: bit p % 8 of byte p / 8. -/
def flipBit (f : List Byte) (p : Nat) : List Byte := f.modify (p / 8) (fun b => b ^^^ BitVec.twoPow 8 (p % 8))

/-- Transport write calls a list of moves may still make (R259). -/
def writesIn (ms : List Move) : Nat :=
  (ms.map fun m => match m with | .xmit => 1 | .readOp _ => 1 | _ => 0).sum

/-- Transport read calls a list of moves may still make, at most two for a read operation (R259). -/
def readsIn (ms : List Move) : Nat :=
  (ms.map fun m =>
    match m with | .recv _ => 1 | .recvDiscard _ => 1 | .recvExpected => 1 | .readOp _ => 2 | _ => 0).sum

end Sys2Proof
end

