-- ==== Sys2Proof/Certificates/Slice0/Obligations.lean ====
section
/-! DEFINITION. The statements about the machine, from the spec's numbered rules. -/

open Sys2Proof Sys2Proof.Machine

/-! ### Command encoding (30_encoding) -/

/-- The rows of R105: word, instruction, and the columns OPC, WSEL, SGN, KIND (RSVD is 0). -/
def Sys2Proof.acceptedRows : List (Word × Instr × Fields) :=
  [ (0x00000001, .crc16,          ⟨1, 0, 0, 0, 0⟩)
  , (0x00000002, .buildReq,       ⟨2, 0, 0, 0, 0⟩)
  , (0x00000003, .validate,       ⟨3, 0, 0, 0, 0⟩)
  , (0x00000004, .decodeBits,     ⟨4, 0, 0, 0, 0⟩)
  , (0x00000005, .decodeIntU16,   ⟨5, 0, 0, 0, 0⟩)
  , (0x00000045, .decodeIntS16,   ⟨5, 0, 1, 0, 0⟩)
  , (0x00000015, .decodeIntU32,   ⟨5, 1, 0, 0, 0⟩)
  , (0x00000055, .decodeIntS32,   ⟨5, 1, 1, 0, 0⟩)
  , (0x00000025, .decodeIntU64,   ⟨5, 2, 0, 0, 0⟩)
  , (0x00000065, .decodeIntS64,   ⟨5, 2, 1, 0, 0⟩)
  , (0x00000016, .decodeFloatF32, ⟨6, 1, 0, 0, 0⟩)
  , (0x00000026, .decodeFloatF64, ⟨6, 2, 0, 0, 0⟩)
  , (0x00000007, .planCoils,      ⟨7, 0, 0, 0, 0⟩)
  , (0x00000087, .planDiscrete,   ⟨7, 0, 0, 1, 0⟩)
  , (0x00000107, .planInt16,      ⟨7, 0, 0, 2, 0⟩)
  , (0x00000117, .planInt32,      ⟨7, 1, 0, 2, 0⟩)
  , (0x00000127, .planInt64,      ⟨7, 2, 0, 2, 0⟩)
  , (0x00000197, .planFloat32,    ⟨7, 1, 0, 3, 0⟩)
  , (0x000001A7, .planFloat64,    ⟨7, 2, 0, 3, 0⟩) ]

/-- Words written out bit by bit from R100 and R105, one or more per family, and words R106 and R107 name. -/
def Obligations.KnownWordsDecode : Prop :=
  decode 0b00000000000000000000000000000001 = .ok .crc16 ∧
  decode 0b00000000000000000000000000000010 = .ok .buildReq ∧
  decode 0b00000000000000000000000000000011 = .ok .validate ∧
  decode 0b00000000000000000000000000000100 = .ok .decodeBits ∧
  decode 0b00000000000000000000000001010101 = .ok .decodeIntS32 ∧
  decode 0b00000000000000000000000000100101 = .ok .decodeIntU64 ∧
  decode 0b00000000000000000000000000010110 = .ok .decodeFloatF32 ∧
  decode 0b00000000000000000000000010000111 = .ok .planDiscrete ∧
  decode 0b00000000000000000000000110100111 = .ok .planFloat64 ∧
  decode 0b00000000000000000000000100110111 = .error .invalidFormat ∧
  decode 0b00000000000000000000000000000000 = .error .illegalCommand ∧
  decode 0b00000000000000000000000010110101 = .error .illegalCommand

/-- R105: the accepted words are exactly the 19 rows, each matched on all 32 bits, with the rows' fields; every other
word raises IllegalCommand or InvalidFormat. -/
def Obligations.AcceptedWordsExactly : Prop :=
  (∀ (w : Word) (i : Instr), decode w = .ok i ↔ ∃ f, (w, i, f) ∈ acceptedRows) ∧
  (∀ row ∈ acceptedRows, fieldsOf row.1 = row.2.2) ∧
  (∀ w : Word, (∀ row ∈ acceptedRows, row.1 ≠ w) →
    (∀ s, execute w s = .next { s with status := .illegalCommand }) ∨
    (∀ s, execute w s = .next { s with status := .invalidFormat }))

/-- Decoding an encoded command gives it back, an accepted word is the encoding of its command, and no bit of a word is
dropped by its fields (derived from R100, R105, R109). -/
def Obligations.DecodeEncodeAgree : Prop :=
  (∀ i : Instr, decode (encode i) = .ok i) ∧
  (∀ (w : Word) (i : Instr), decode w = .ok i → encode i = w) ∧
  (∀ f : Fields, fieldsOf (wordOf f) = f) ∧
  (∀ w : Word, wordOf (fieldsOf w) = w)

/-- The decoder accepts exactly the words whose fields the field-use table admits (derived from R102). -/
def Obligations.AcceptedIffWellFormed : Prop :=
  ∀ w : Word, (∃ i, decode w = .ok i) ↔ (fieldsOf w).wellFormed = true

/-- R106: the seven InvalidFormat words; they write STATUS = InvalidFormat and nothing else. -/
def Obligations.InvalidFormatWords : Prop :=
  ∀ w : Word,
    (decode w = .error .invalidFormat ↔
      w ∈ ([0x00000035, 0x00000075, 0x00000006, 0x00000036, 0x00000137, 0x00000187, 0x000001B7] : List Word)) ∧
    (decode w = .error .invalidFormat → ∀ s, execute w s = .next { s with status := .invalidFormat })

/-- R107: the IllegalCommand words, by their fields; they write STATUS = IllegalCommand and nothing else. -/
def Obligations.IllegalCommandWords : Prop :=
  ∀ w : Word,
    let f := fieldsOf w
    (decode w = .error .illegalCommand ↔
      f.rsvd ≠ 0 ∨ f.opc = 0 ∨ 8 ≤ f.opc.toNat ∨
      ((1 ≤ f.opc.toNat ∧ f.opc.toNat ≤ 4) ∧ (f.wsel ≠ 0 ∨ f.sgn ≠ 0 ∨ f.kind ≠ 0)) ∨
      (f.opc = 5 ∧ f.kind ≠ 0) ∨
      (f.opc = 6 ∧ (f.sgn ≠ 0 ∨ f.kind ≠ 0)) ∨
      (f.opc = 7 ∧ (f.sgn ≠ 0 ∨ (f.kind.toNat < 2 ∧ f.wsel ≠ 0)))) ∧
    (decode w = .error .illegalCommand → ∀ s, execute w s = .next { s with status := .illegalCommand })

/-! ### A command runs (10_state R32, 60_exceptions) -/

/-- A step whose next move is a CMD write of an accepted word is that command's exec, the move taken off the list and
the word stored in CMD; withFetchWord places exactly such a move first. -/
def Obligations.StepRunsDecodedCommand : Prop :=
  (∀ (s : State) (w : Word) (i : Instr) (rest : List Move),
    s.host.moves = .busWrite (busAddr s.params 0) 4 w :: rest → decode w = .ok i →
    step s = exec i { s with cmd := w, host := { s.host with moves := rest } }) ∧
  (∀ (s : State) (w : Nat), w < 2 ^ 32 →
    (s.withFetchWord 32 w).host.moves = .busWrite (busAddr s.params 0) 4 (BitVec.ofNat 32 w) :: s.host.moves)

/-- R32: a CMD write stores the word and executes it, CMD reads back the last word written, a CMD read changes nothing
of the engine, and no other write starts a command. -/
def Obligations.CmdWriteExecutes : Prop :=
  (∀ (s : State) (w : Word), memWrite s 0x000 4 w = execute w { s with cmd := w }) ∧
  (∀ (s t : State) (w : Word), memWrite s 0x000 4 w = .next t → memRead t 0x000 4 = .ok w) ∧
  (∀ p : Params, memRead (State.resetFor p) 0x000 4 = .ok 0) ∧
  (∀ (s : State) (rest : List Move), s.host.moves = .busRead (busAddr s.params 0) 4 :: rest →
    step s = .next { s with host := { s.host with moves := rest, readData := some s.cmd } }) ∧
  (∀ (s t : State) (off v : Word) (n : Nat), off ≠ 0 → memWrite s off n v = .next t →
    t.cmd = s.cmd ∧ t.status = s.status ∧ t.crc = s.crc ∧ t.obufLen = s.obufLen ∧ t.obuf = s.obuf ∧
    t.explen = s.explen ∧ t.vcount = s.vcount ∧ t.values = s.values)

/-- The status codes of the table, distinct (derived from 60_exceptions section 2). -/
def Obligations.StatusCodes : Prop :=
  Status.code .ok = 0x0 ∧ Status.code .invalidAddress = 0x1 ∧ Status.code .invalidFormat = 0x2 ∧
  Status.code .noResponse = 0x3 ∧ Status.code .crcMismatch = 0x4 ∧ Status.code .unexpectedFunction = 0x5 ∧
  Status.code .illegalCommand = 0x6 ∧ Status.code .bufferBounds = 0x7 ∧ Status.code .payloadLength = 0x8 ∧
  Status.code .fieldRange = 0x9 ∧ Status.code .idle = 0xF ∧
  ∀ a b : Status, a.code = b.code → a = b

/-- Which statuses each command can end with; IDLE is among none of them (derived from 60_exceptions section 2). -/
def Obligations.StatusesPerCommand : Prop :=
  (∀ (i : Instr) (s t : State), exec i s = .next t →
    t.status ∈ (match i with
      | .crc16 => [.ok, .bufferBounds]
      | .buildReq => [.ok, .invalidAddress, .fieldRange]
      | .validate => [.ok, .bufferBounds, .noResponse, .crcMismatch, .unexpectedFunction]
      | .decodeBits => [.ok, .bufferBounds]
      | .decodeIntU16 | .decodeIntS16 | .decodeIntU32 | .decodeIntS32 | .decodeIntU64 | .decodeIntS64
      | .decodeFloatF32 | .decodeFloatF64 => [.ok, .bufferBounds, .payloadLength]
      | .planCoils | .planDiscrete | .planInt16 | .planInt32 | .planInt64 | .planFloat32 | .planFloat64 =>
        [.ok, .fieldRange] : List Status)) ∧
  (∀ (w : Word) (s t : State), execute w s = .next t → t.status ≠ .idle)

/-- R282: a command that ends with a code other than OK writes STATUS and nothing else; CMD holds the new word. -/
def Obligations.FailureWritesStatusOnly : Prop :=
  (∀ (w : Word) (s t : State), execute w s = .next t → t.status ≠ .ok → t = { s with status := t.status }) ∧
  (∀ (w : Word) (s t : State), memWrite s 0x000 4 w = .next t → t.status ≠ .ok →
    t = { s with cmd := w, status := t.status })

/-- No command is refused, and the only fault of a command is an input byte inside IBUF[0 : IBUF_SIZE] that holds no
value (derived from 60_exceptions section 4). -/
def Obligations.CommandsFaultOnlyUnwritten : Prop :=
  (∀ (i : Instr) (s : State) (r : Refusal), exec i s ≠ .refused r) ∧
  (∀ (i : Instr) (s : State) (f : Fault), exec i s = .fault f →
    ∃ k, k < s.params.size ∧ f = .unwritten (.ibuf k) ∧ Memory.read s.ibuf k = none)

/-- A second identical command with unchanged operands leaves the same state as the first (derived from 20_memory
section 5). -/
def Obligations.CommandsRepeatIdentically : Prop :=
  ∀ (i : Instr) (s t : State), exec i s = .next t → exec i t = .next t

/-! ### Frames: what each family leaves unchanged -/

/-- CRC16 and BUILD_REQ change STATUS, CRC, OBUF_LEN and OBUF only (derived). -/
def Obligations.FrameCrc16BuildReq : Prop :=
  ∀ (i : Instr) (s t : State), i ∈ [Instr.crc16, Instr.buildReq] → exec i s = .next t →
    t.params = s.params ∧ t.cmd = s.cmd ∧ t.func = s.func ∧ t.devAddr = s.devAddr ∧ t.start = s.start ∧
    t.qty = s.qty ∧ t.count = s.count ∧ t.ibufLen = s.ibufLen ∧ t.poff = s.poff ∧ t.plen = s.plen ∧
    t.explen = s.explen ∧ t.vcount = s.vcount ∧ t.host = s.host ∧
    (∀ k, Memory.read t.ibuf k = Memory.read s.ibuf k) ∧
    (∀ k, Memory.read t.values k = Memory.read s.values k) ∧
    (∀ (off : Word) (n : Nat), off ∉ ([0x004, 0x028, 0x02C] : List Word) →
      ¬ (0x00020000 ≤ off.toNat ∧ off.toNat < 0x00020008) → memRead t off n = memRead s off n)

/-- VALIDATE changes STATUS, POFF and PLEN only (derived). -/
def Obligations.FrameValidate : Prop :=
  ∀ (s t : State), exec .validate s = .next t →
    t.params = s.params ∧ t.cmd = s.cmd ∧ t.func = s.func ∧ t.devAddr = s.devAddr ∧ t.start = s.start ∧
    t.qty = s.qty ∧ t.count = s.count ∧ t.ibufLen = s.ibufLen ∧ t.obufLen = s.obufLen ∧ t.crc = s.crc ∧
    t.explen = s.explen ∧ t.vcount = s.vcount ∧ t.host = s.host ∧
    (∀ k, Memory.read t.ibuf k = Memory.read s.ibuf k) ∧
    (∀ k, Memory.read t.obuf k = Memory.read s.obuf k) ∧
    (∀ k, Memory.read t.values k = Memory.read s.values k) ∧
    (∀ (off : Word) (n : Nat), off ∉ ([0x004, 0x020, 0x024] : List Word) → memRead t off n = memRead s off n)

/-- The decode commands. -/
def Sys2Proof.decodeCommands : List Instr :=
  [.decodeBits, .decodeIntU16, .decodeIntS16, .decodeIntU32, .decodeIntS32, .decodeIntU64, .decodeIntS64,
   .decodeFloatF32, .decodeFloatF64]

/-- The decode commands change STATUS, VCOUNT and VALUES only (derived). -/
def Obligations.FrameDecode : Prop :=
  ∀ (i : Instr) (s t : State), i ∈ decodeCommands → exec i s = .next t →
    t.params = s.params ∧ t.cmd = s.cmd ∧ t.func = s.func ∧ t.devAddr = s.devAddr ∧ t.start = s.start ∧
    t.qty = s.qty ∧ t.count = s.count ∧ t.ibufLen = s.ibufLen ∧ t.poff = s.poff ∧ t.plen = s.plen ∧
    t.obufLen = s.obufLen ∧ t.crc = s.crc ∧ t.explen = s.explen ∧ t.host = s.host ∧
    (∀ k, Memory.read t.ibuf k = Memory.read s.ibuf k) ∧
    (∀ k, Memory.read t.obuf k = Memory.read s.obuf k) ∧
    (∀ (off : Word) (n : Nat), off ∉ ([0x004, 0x034] : List Word) →
      off.toNat < 0x01000000 ∨ 0x01000000 + 8 * s.params.vcap ≤ off.toNat → memRead t off n = memRead s off n)

/-- The PLAN commands. -/
def Sys2Proof.planCommands : List Instr :=
  [.planCoils, .planDiscrete, .planInt16, .planInt32, .planInt64, .planFloat32, .planFloat64]

/-- The PLAN commands change STATUS, FUNC, QTY and EXPLEN only (derived). -/
def Obligations.FramePlan : Prop :=
  ∀ (i : Instr) (s t : State), i ∈ planCommands → exec i s = .next t →
    t.params = s.params ∧ t.cmd = s.cmd ∧ t.devAddr = s.devAddr ∧ t.start = s.start ∧
    t.count = s.count ∧ t.ibufLen = s.ibufLen ∧ t.poff = s.poff ∧ t.plen = s.plen ∧
    t.obufLen = s.obufLen ∧ t.crc = s.crc ∧ t.vcount = s.vcount ∧ t.host = s.host ∧
    (∀ k, Memory.read t.ibuf k = Memory.read s.ibuf k) ∧
    (∀ k, Memory.read t.obuf k = Memory.read s.obuf k) ∧
    (∀ k, Memory.read t.values k = Memory.read s.values k) ∧
    (∀ (off : Word) (n : Nat), off ∉ ([0x004, 0x008, 0x014, 0x030] : List Word) → memRead t off n = memRead s off n)

/-! ### The CRC (40_crc) -/

/-- One bit step of R130 on numbers. -/
def Sys2Proof.crcStepNat (r : Nat) : Nat := if r % 2 = 1 then (r / 2) ^^^ 0xA001 else r / 2

/-- 0xFFFF for no byte; each further byte is XORed into the low 8 bits and followed by eight bit steps (derived from
40_crc section 1; that the byte goes into the low half and that bit 0 is tested before the shift the spec marks as
general knowledge, log 10). -/
def Obligations.Crc16Function : Prop :=
  crc16 [] = 0xFFFF ∧
  ∀ (bs : List Byte) (b : Byte),
    (crc16 (bs ++ [b])).toNat = Nat.iterate crcStepNat 8 ((crc16 bs).toNat ^^^ b.toNat)

/-- R132: the empty input. -/
def Obligations.CrcOfEmpty : Prop := crc16 [] = 0xFFFF ∧ crcBytes [] = [0xFF, 0xFF]

/-- The reference values (derived from 40_crc section 3, R138). -/
def Obligations.CrcReferenceValues : Prop :=
  crc16 [0x01, 0x03, 0x00, 0x00, 0x00, 0x0A] = 0xCDC5 ∧
  crcBytes [0x01, 0x03, 0x00, 0x00, 0x00, 0x0A] = [0xC5, 0xCD] ∧
  crc16 [0x31, 0x32, 0x33, 0x34, 0x35, 0x36, 0x37, 0x38, 0x39] = 0x4B37

/-- A frame with its CRC appended has residue zero (derived from 40_crc section 3). -/
def Obligations.CrcResidueIsZero : Prop := ∀ bs : List Byte, crc16 (bs ++ crcBytes bs) = 0

/-- Every single-bit flip of a frame, the CRC bytes included, is detected (derived from 40_crc section 3). -/
def Obligations.CrcDetectsSingleBitFlip : Prop :=
  ∀ (bs : List Byte) (p : Nat), p < 8 * (bs.length + 2) →
    let f' := flipBit (bs ++ crcBytes bs) p
    crcBytes (f'.take (f'.length - 2)) ≠ f'.drop (f'.length - 2)

/-- R133: CRC16. The word, the bounds check, the unwritten byte, and the result. -/
def Obligations.Crc16Command : Prop :=
  (∀ w : Word, decode w = .ok .crc16 ↔ w = 0x00000001) ∧
  (∀ (w : Word) (s : State), (fieldsOf w).opc = 1 → w ≠ 0x00000001 →
    execute w s = .next { s with status := .illegalCommand }) ∧
  (∀ s : State, s.params.size < s.ibufLen.toNat → exec .crc16 s = .next { s with status := .bufferBounds }) ∧
  (∀ (s : State) (k : Nat), LengthInBounds s → FirstUnwritten s.ibuf 0 s.ibufLen.toNat k →
    exec .crc16 s = .fault (.unwritten (.ibuf k))) ∧
  (∀ (s : State) (f : List Byte), InputHolds s f →
    exec .crc16 s = .next { s with
      crc := crc16 f
      obuf := [(0, (crc16 f).setWidth 8), (1, ((crc16 f) >>> 8).setWidth 8)]
      obufLen := 2
      status := .ok })

/-! ### The frame encoder (41_encoder) -/

/-- R152, R153, R157: BUILD_REQ. The word, the address check first, the 16-bit range check second, and the result. -/
def Obligations.BuildReqCommand : Prop :=
  (∀ w : Word, decode w = .ok .buildReq ↔ w = 0x00000002) ∧
  (∀ (w : Word) (s : State), (fieldsOf w).opc = 2 → w ≠ 0x00000002 →
    execute w s = .next { s with status := .illegalCommand }) ∧
  (∀ s : State, s.devAddr.toInt < 0 ∨ 255 < s.devAddr.toInt →
    exec .buildReq s = .next { s with status := .invalidAddress }) ∧
  (∀ s : State, 0 ≤ s.devAddr.toInt → s.devAddr.toInt ≤ 255 → 0xFFFF < s.start.toNat ∨ 0xFFFF < s.qty.toNat →
    exec .buildReq s = .next { s with status := .fieldRange }) ∧
  (∀ s : State, 0 ≤ s.devAddr.toInt → s.devAddr.toInt ≤ 255 → s.start.toNat ≤ 0xFFFF → s.qty.toNat ≤ 0xFFFF →
    let body : List Byte :=
      [ BitVec.ofNat 8 s.devAddr.toNat, s.func
      , BitVec.ofNat 8 (s.start.toNat / 256), BitVec.ofNat 8 (s.start.toNat % 256)
      , BitVec.ofNat 8 (s.qty.toNat / 256), BitVec.ofNat 8 (s.qty.toNat % 256) ]
    let c := crc16 body
    exec .buildReq s = .next { s with
      crc := c
      obuf := Memory.ofList (body ++ [BitVec.ofNat 8 (c.toNat % 256), BitVec.ofNat 8 (c.toNat / 256)])
      obufLen := 8
      status := .ok })

/-- After a successful BUILD_REQ the big-endian fields of OBUF are the operands (derived from 41_encoder section 3). -/
def Obligations.BuildReqFieldsRoundTrip : Prop :=
  ∀ s t : State, exec .buildReq s = .next t → t.status = .ok →
    ∃ b0 b2 b3 b4 b5 : Byte,
      Memory.read t.obuf 0 = some b0 ∧ Memory.read t.obuf 1 = some s.func ∧
      Memory.read t.obuf 2 = some b2 ∧ Memory.read t.obuf 3 = some b3 ∧
      Memory.read t.obuf 4 = some b4 ∧ Memory.read t.obuf 5 = some b5 ∧
      (b0.toNat : Int) = s.devAddr.toInt ∧
      b2.toNat * 256 + b3.toNat = s.start.toNat ∧
      b4.toNat * 256 + b5.toNat = s.qty.toNat

/-- A built request passes the CRC check and has residue zero (derived from 41_encoder section 3). -/
def Obligations.BuildReqPassesCrcCheck : Prop :=
  ∀ s t : State, exec .buildReq s = .next t → t.status = .ok →
    ∃ f : List Byte, f.length = 8 ∧ Holds t.obuf 0 f ∧ crcBytes (f.take 6) = f.drop 6 ∧ crc16 f = 0

/-! ### The response validator (42_validator) -/

/-- R172: VALIDATE. The word and its checks in their order, then the payload window. -/
def Obligations.ValidateCommand : Prop :=
  (∀ w : Word, decode w = .ok .validate ↔ w = 0x00000003) ∧
  (∀ (w : Word) (s : State), (fieldsOf w).opc = 3 → w ≠ 0x00000003 →
    execute w s = .next { s with status := .illegalCommand }) ∧
  (∀ s : State, s.params.size < s.ibufLen.toNat → exec .validate s = .next { s with status := .bufferBounds }) ∧
  (∀ s : State, s.ibufLen = 0 → exec .validate s = .next { s with status := .noResponse }) ∧
  (∀ (s : State) (k : Nat), LengthInBounds s → FirstUnwritten s.ibuf 0 s.ibufLen.toNat k →
    exec .validate s = .fault (.unwritten (.ibuf k))) ∧
  (∀ (s : State) (f : List Byte), InputHolds s f → f.length = 1 →
    exec .validate s = .next { s with status := .crcMismatch }) ∧
  (∀ (s : State) (f : List Byte), InputHolds s f → 2 ≤ f.length →
    crcBytes (f.take (f.length - 2)) ≠ f.drop (f.length - 2) →
    exec .validate s = .next { s with status := .crcMismatch }) ∧
  (∀ (s : State) (f : List Byte), InputHolds s f → 2 ≤ f.length →
    crcBytes (f.take (f.length - 2)) = f.drop (f.length - 2) → f[1]? ≠ some s.func →
    exec .validate s = .next { s with status := .unexpectedFunction }) ∧
  (∀ (s : State) (f : List Byte), InputHolds s f → 2 ≤ f.length →
    crcBytes (f.take (f.length - 2)) = f.drop (f.length - 2) → f[1]? = some s.func →
    exec .validate s =
      .next { s with poff := 3, plen := BitVec.ofNat 16 (f.length - 5), status := .ok })

/-- Encode and validate round trip: a well-formed response, whatever its address and byte-count bytes, is accepted and
the window holds exactly its payload (derived from 42_validator section 3). -/
def Obligations.ValidateRoundTrip : Prop :=
  ∀ (s : State) (a k : Byte) (p : List Byte),
    InputHolds s ([a, s.func, k] ++ p ++ crcBytes ([a, s.func, k] ++ p)) →
    ∃ t, exec .validate s = .next t ∧ t.status = .ok ∧ WindowHolds t p ∧
      (∀ j, Memory.read t.ibuf j = Memory.read s.ibuf j)

/-- Tamper detection: a well-formed response with any one bit flipped is a CrcMismatch (derived from 42_validator
section 3). -/
def Obligations.ValidateDetectsTamper : Prop :=
  ∀ (s : State) (a fn k : Byte) (p : List Byte) (bit : Nat),
    bit < 8 * (p.length + 5) →
    InputHolds s (flipBit ([a, fn, k] ++ p ++ crcBytes ([a, fn, k] ++ p)) bit) →
    exec .validate s = .next { s with status := .crcMismatch }

/-! ### The register decoder (43_decoder) -/

/-- DECODE_INT.U16, U32, U64 complete on a window of COUNT·W bytes: entry j is the big-endian chunk j (derived from
43_decoder section 3). -/
def Obligations.DecodeIntUnsigned : Prop :=
  ∀ (s : State) (i : Instr) (W : Nat) (p : List Byte),
    (i, W) ∈ [(Instr.decodeIntU16, 2), (Instr.decodeIntU32, 4), (Instr.decodeIntU64, 8)] →
    WindowHolds s p → s.plen.toNat = s.count.toNat * W →
    ∃ vs : List Value,
      exec i s = .next { s with values := Memory.ofList vs, vcount := s.count, status := .ok } ∧
      vs.length = s.count.toNat ∧
      ∀ j, j < s.count.toNat →
        vs[j]?.map BitVec.toNat = some (bigEndian ((p.drop (j * W)).take W))

/-- DECODE_INT.S16, S32, S64 complete on a window of COUNT·W bytes: entry j, read as a signed 64-bit value, is the two's
complement value of chunk j (derived from 43_decoder section 3). -/
def Obligations.DecodeIntSigned : Prop :=
  ∀ (s : State) (i : Instr) (W : Nat) (p : List Byte),
    (i, W) ∈ [(Instr.decodeIntS16, 2), (Instr.decodeIntS32, 4), (Instr.decodeIntS64, 8)] →
    WindowHolds s p → s.plen.toNat = s.count.toNat * W →
    ∃ vs : List Value,
      exec i s = .next { s with values := Memory.ofList vs, vcount := s.count, status := .ok } ∧
      vs.length = s.count.toNat ∧
      ∀ j, j < s.count.toNat →
        vs[j]?.map BitVec.toInt = some (tc (8 * W) (bigEndian ((p.drop (j * W)).take W)))

/-- DECODE_FLOAT.F32, F64 complete on a window of COUNT·W bytes: entry j is the bit pattern of chunk j, zero-extended
(derived from 43_decoder section 4). -/
def Obligations.DecodeFloatPatterns : Prop :=
  ∀ (s : State) (i : Instr) (W : Nat) (p : List Byte),
    (i, W) ∈ [(Instr.decodeFloatF32, 4), (Instr.decodeFloatF64, 8)] →
    WindowHolds s p → s.plen.toNat = s.count.toNat * W →
    ∃ vs : List Value,
      exec i s = .next { s with values := Memory.ofList vs, vcount := s.count, status := .ok } ∧
      vs.length = s.count.toNat ∧
      ∀ j, j < s.count.toNat →
        vs[j]?.map BitVec.toNat = some (bigEndian ((p.drop (j * W)).take W))

/-- The integer and float decodes with their widths. -/
def Sys2Proof.chunkCommands : List (Instr × Nat) :=
  [ (.decodeIntU16, 2), (.decodeIntS16, 2), (.decodeIntU32, 4), (.decodeIntS32, 4), (.decodeIntU64, 8)
  , (.decodeIntS64, 8), (.decodeFloatF32, 4), (.decodeFloatF64, 8) ]

/-- R208: PayloadLength unless PLEN = COUNT·W exactly, the product without overflow; BufferBounds comes before it and
the unwritten byte after it (R293). -/
def Obligations.DecodeChunkRejects : Prop :=
  ∀ (s : State) (i : Instr) (W : Nat), (i, W) ∈ chunkCommands →
    (¬ WindowInBounds s → exec i s = .next { s with status := .bufferBounds }) ∧
    (WindowInBounds s → s.plen.toNat ≠ s.count.toNat * W → exec i s = .next { s with status := .payloadLength }) ∧
    (∀ k, WindowInBounds s → s.plen.toNat = s.count.toNat * W →
      FirstUnwritten s.ibuf s.poff.toNat s.plen.toNat k → exec i s = .fault (.unwritten (.ibuf k)))

/-- The big-endian bytes of a 32-bit pattern. -/
def Sys2Proof.bytesOf32 (v : BitVec 32) : List Byte :=
  [v.extractLsb' 24 8, v.extractLsb' 16 8, v.extractLsb' 8 8, v.extractLsb' 0 8]

/-- The big-endian bytes of a 64-bit pattern. -/
def Sys2Proof.bytesOf64 (v : BitVec 64) : List Byte :=
  [ v.extractLsb' 56 8, v.extractLsb' 48 8, v.extractLsb' 40 8, v.extractLsb' 32 8
  , v.extractLsb' 24 8, v.extractLsb' 16 8, v.extractLsb' 8 8, v.extractLsb' 0 8 ]

/-- Integer decode idempotence and float decode precision: signed 32-bit integers and 64-bit patterns written
big-endian are decoded to themselves (derived from 43_decoder sections 3 to 5). -/
def Obligations.DecodeGivesBackWhatWasEncoded : Prop :=
  (∀ (s : State) (is : List (BitVec 32)), WindowHolds s (is.flatMap bytesOf32) → s.count.toNat = is.length →
    ∃ t, exec .decodeIntS32 s = .next t ∧ t.status = .ok ∧
      ∀ j, (Memory.read t.values j).map BitVec.toInt = is[j]?.map BitVec.toInt) ∧
  (∀ (s : State) (fs : List (BitVec 64)), WindowHolds s (fs.flatMap bytesOf64) → s.count.toNat = fs.length →
    ∃ t, exec .decodeFloatF64 s = .next t ∧ t.status = .ok ∧ ∀ j, Memory.read t.values j = fs[j]?)

/-- `ds` is the binary digit expansion of v, most significant digit first: no leading zero, and [0] for zero. -/
def Sys2Proof.IsExpansion (v : Nat) (ds : List Bool) : Prop :=
  digitsValue ds = v ∧ (v = 0 → ds = [false]) ∧ (v ≠ 0 → ds.head? = some true)

/-- R192: in AS_OBSERVED mode DECODE_BITS completes on every window that holds bytes, with the binary digit expansion of
the payload's big-endian value. -/
def Obligations.DecodeBitsAsObserved : Prop :=
  ∀ (s : State) (p : List Byte), s.params.bitMode = .asObserved → WindowHolds s p →
    ∃ ds : List Bool,
      exec .decodeBits s = .next { s with
        values := Memory.ofList (ds.map fun d => if d then 1 else 0)
        vcount := BitVec.ofNat 32 ds.length
        status := .ok } ∧
      IsExpansion (bigEndian p) ds ∧ ds.length ≤ max 1 (8 * p.length)

/-- R193: in PADDED mode DECODE_BITS completes when COUNT ≤ VCAP, with the expansion zero-padded to 8·ceil(COUNT/8)
digits and cut to the first COUNT. -/
def Obligations.DecodeBitsPadded : Prop :=
  ∀ (s : State) (p : List Byte), s.params.bitMode = .padded → s.count.toNat ≤ s.params.vcap → WindowHolds s p →
    ∃ d0 ds : List Bool,
      exec .decodeBits s = .next { s with
        values := Memory.ofList (ds.map fun d => if d then 1 else 0)
        vcount := s.count
        status := .ok } ∧
      IsExpansion (bigEndian p) d0 ∧ ds.length = s.count.toNat ∧
      ds = ((List.replicate (8 * ((s.count.toNat + 7) / 8) - d0.length) false) ++ d0).take s.count.toNat

/-- DECODE_BITS: BufferBounds for the window, then for a PADDED COUNT above VCAP, then the unwritten byte (derived from
43_decoder section 2 and 60_exceptions section 3). -/
def Obligations.DecodeBitsRejects : Prop :=
  (∀ w : Word, decode w = .ok .decodeBits ↔ w = 0x00000004) ∧
  (∀ (w : Word) (s : State), (fieldsOf w).opc = 4 → w ≠ 0x00000004 →
    execute w s = .next { s with status := .illegalCommand }) ∧
  (∀ s : State, ¬ WindowInBounds s → exec .decodeBits s = .next { s with status := .bufferBounds }) ∧
  (∀ s : State, WindowInBounds s → s.params.bitMode = .padded → s.params.vcap < s.count.toNat →
    exec .decodeBits s = .next { s with status := .bufferBounds }) ∧
  (∀ (s : State) (k : Nat), WindowInBounds s →
    (s.params.bitMode = .asObserved ∨ s.count.toNat ≤ s.params.vcap) →
    FirstUnwritten s.ibuf s.poff.toNat s.plen.toNat k → exec .decodeBits s = .fault (.unwritten (.ibuf k)))

/-! ### The request framer (44_framer) -/

/-- The PLAN commands with their function code (R230) and registers per value (R231). -/
def Sys2Proof.planRows : List (Instr × Byte × Nat) :=
  [ (.planCoils, 0x01, 1), (.planDiscrete, 0x02, 1), (.planInt16, 0x03, 1), (.planInt32, 0x03, 2)
  , (.planInt64, 0x03, 4), (.planFloat32, 0x03, 2), (.planFloat64, 0x03, 4) ]

/-- R230, R231, R232, R238: a count whose register count fits 16 bits gives the function code, the register count and
the expected length 2·regs_amount + 5; any other count is refused with FieldRange. -/
def Obligations.PlanCommand : Prop :=
  ∀ (s : State) (i : Instr) (fn : Byte) (rpv : Nat), (i, fn, rpv) ∈ planRows →
    (s.count.toNat * rpv ≤ 0xFFFF →
      ∃ t, exec i s = .next t ∧ t.func = fn ∧ t.qty.toNat = s.count.toNat * rpv ∧
        t.explen.toNat = s.count.toNat * rpv * 2 + 5 ∧
        t = { s with func := fn, qty := t.qty, explen := t.explen, status := .ok }) ∧
    (0xFFFF < s.count.toNat * rpv → exec i s = .next { s with status := .fieldRange })

/-! ### The host's accesses (20_memory) -/

/-- A read the engine accepts (R71 to R74). -/
def Sys2Proof.Readable (s : State) (off : Word) (n : Nat) : Prop :=
  (n = 4 ∧ off.toNat < 0x3C ∧ off.toNat % 4 = 0) ∨
  (n = 1 ∧ 0x00010000 ≤ off.toNat ∧ off.toNat < 0x00010000 + s.params.size) ∨
  (n = 1 ∧ 0x00020000 ≤ off.toNat ∧ off.toNat < 0x00020008) ∨
  (n = 4 ∧ 0x01000000 ≤ off.toNat ∧ off.toNat < 0x01000000 + 8 * s.params.vcap ∧ off.toNat % 4 = 0)

/-- A write the engine accepts: a read-write register or an IBUF byte. -/
def Sys2Proof.Writable (s : State) (off : Word) (n : Nat) : Prop :=
  (n = 4 ∧ off ∈ ([0x000, 0x008, 0x00C, 0x010, 0x014, 0x018, 0x01C, 0x020, 0x024] : List Word)) ∨
  (n = 1 ∧ 0x00010000 ≤ off.toNat ∧ off.toNat < 0x00010000 + s.params.size)

/-- R78: a host access is a BusError exactly when it is not accepted: unmapped, wrong width, misaligned, or a write to a
read-only place. -/
def Obligations.BusErrorExactly : Prop :=
  (∀ (s : State) (off : Word) (n : Nat), memRead s off n = .error (.busError off) ↔ ¬ Readable s off n) ∧
  (∀ (s : State) (off v : Word) (n : Nat), memWrite s off n v = .fault (.busError off) ↔ ¬ Writable s off n)

/-- R76: what an accepted read answers, and that no read changes the engine. -/
def Obligations.MemReadAnswers : Prop :=
  (∀ s : State,
    memRead s 0x000 4 = .ok s.cmd ∧ memRead s 0x004 4 = .ok (s.status.code.setWidth 32) ∧
    memRead s 0x008 4 = .ok (s.func.setWidth 32) ∧ memRead s 0x00C 4 = .ok s.devAddr ∧
    memRead s 0x010 4 = .ok s.start ∧ memRead s 0x014 4 = .ok s.qty ∧ memRead s 0x018 4 = .ok s.count ∧
    memRead s 0x01C 4 = .ok (s.ibufLen.setWidth 32) ∧ memRead s 0x020 4 = .ok (s.poff.setWidth 32) ∧
    memRead s 0x024 4 = .ok (s.plen.setWidth 32) ∧ memRead s 0x028 4 = .ok (s.obufLen.setWidth 32) ∧
    memRead s 0x02C 4 = .ok (s.crc.setWidth 32) ∧ memRead s 0x030 4 = .ok s.explen ∧
    memRead s 0x034 4 = .ok s.vcount ∧ memRead s 0x038 4 = .ok (configWord s.params)) ∧
  (∀ (s : State) (i : Nat), i < s.params.size →
    memRead s (BitVec.ofNat 32 (0x00010000 + i)) 1 =
      match Memory.read s.ibuf i with
      | some b => .ok (b.setWidth 32)
      | none => .error (.unwritten (.ibuf i))) ∧
  (∀ (s : State) (i : Nat), i < 8 →
    memRead s (BitVec.ofNat 32 (0x00020000 + i)) 1 =
      match Memory.read s.obuf i with
      | some b => .ok (b.setWidth 32)
      | none => .error (.unwritten (.obuf i))) ∧
  (∀ (s : State) (e : Nat), e < s.params.vcap →
    memRead s (BitVec.ofNat 32 (0x01000000 + 8 * e)) 4 =
      (match Memory.read s.values e with
      | some v => .ok (v.extractLsb' 0 32)
      | none => .error (.unwritten (.values e))) ∧
    memRead s (BitVec.ofNat 32 (0x01000000 + 8 * e + 4)) 4 =
      (match Memory.read s.values e with
      | some v => .ok (v.extractLsb' 32 32)
      | none => .error (.unwritten (.values e)))) ∧
  (∀ (s t : State) (addr : Word) (n : Nat) (rest : List Move), s.host.moves = .busRead addr n :: rest →
    step s = .next t →
    t = { s with host := { s.host with moves := rest, readData := t.host.readData } })

/-- The read-write registers other than CMD, with their offsets and keep masks (R77). -/
def Sys2Proof.keepMasks : List (Word × Word) :=
  [ (0x008, 0x000000FF), (0x00C, 0xFFFFFFFF), (0x010, 0xFFFFFFFF), (0x014, 0xFFFFFFFF), (0x018, 0xFFFFFFFF)
  , (0x01C, 0x0000FFFF), (0x020, 0x0000FFFF), (0x024, 0x0000FFFF) ]

/-- R77: what an accepted write does: CMD stores and executes; a register keeps the bits of its mask; an IBUF byte then
holds v[7:0]; everything else reads as before; a write elsewhere is not accepted. -/
def Obligations.MemWriteEffects : Prop :=
  (∀ (s : State) (v : Word), memWrite s 0x000 4 v = execute v { s with cmd := v }) ∧
  (∀ (s : State) (off mask v : Word), (off, mask) ∈ keepMasks →
    ∃ t, memWrite s off 4 v = .next t ∧ memRead t off 4 = .ok (v &&& mask) ∧
      (∀ (off' : Word) (n : Nat), off' ≠ off → memRead t off' n = memRead s off' n) ∧
      t.ibuf = s.ibuf ∧ t.obuf = s.obuf ∧ t.values = s.values ∧ t.host = s.host) ∧
  (∀ (s : State) (i : Nat) (v : Word), i < s.params.size →
    ∃ t, memWrite s (BitVec.ofNat 32 (0x00010000 + i)) 1 v = .next t ∧
      t = { s with ibuf := t.ibuf } ∧
      Memory.read t.ibuf i = some (v.extractLsb' 0 8) ∧
      (∀ j, j ≠ i → Memory.read t.ibuf j = Memory.read s.ibuf j) ∧
      (∀ (off' : Word) (n : Nat), off' ≠ BitVec.ofNat 32 (0x00010000 + i) → memRead t off' n = memRead s off' n)) ∧
  (∀ (s : State) (off v : Word) (n : Nat), ¬ Writable s off n → memWrite s off n v = .fault (.busError off))

/-- R46: CONFIG reports the parameters in SIZE and BITMODE, its other bits are 0, it takes no write, and no step, a reset
included, changes it. -/
def Obligations.ConfigConstant : Prop :=
  (∀ s : State, ∃ w, memRead s 0x038 4 = .ok w ∧ w.extractLsb' 0 16 = s.params.ibufSize ∧
    (w.getLsbD 16 = true ↔ s.params.bitMode = .padded) ∧ w.extractLsb' 17 15 = 0) ∧
  (∀ (s : State) (v : Word) (n : Nat), memWrite s 0x038 n v = .fault (.busError 0x038)) ∧
  (∀ s t : State, step s = .next t → t.params = s.params)

/-! ### Reset (10_state section 12, 70_reset_and_hazards) -/

/-- R61: after reset every register reads 0 except STATUS (0xF) and CONFIG (the parameters), and no buffer location holds
a value; for every choice of the parameters, State.reset among them. -/
def Obligations.ResetLeaves : Prop :=
  (∀ (p : Params) (k : Nat), k < 14 → k ≠ 1 →
    memRead (State.resetFor p) (BitVec.ofNat 32 (4 * k)) 4 = .ok 0) ∧
  (∀ p : Params, memRead (State.resetFor p) 0x004 4 = .ok 0x0000000F ∧
    memRead (State.resetFor p) 0x038 4 = .ok (configWord p)) ∧
  (∀ (p : Params) (i : Nat), Memory.read (State.resetFor p).ibuf i = none ∧
    Memory.read (State.resetFor p).obuf i = none ∧ Memory.read (State.resetFor p).values i = none) ∧
  (∃ p, p.wf = true ∧ State.reset = State.resetFor p)

/-- The reset input, taken between host accesses, gives the engine its state after reset with the same parameters; that
the host's side is kept is the model's choice (log 7). -/
def Obligations.PlatformResetStep : Prop :=
  ∀ (s : State) (rest : List Move), s.host.moves = .platformReset :: rest →
    step s = .next { State.resetFor s.params with host := { s.host with moves := rest } }

/-! ### The invariant -/

/-- The machine is safe right after reset, for every permitted choice of the parameters. -/
def Obligations.SafeAtReset : Prop := Safe State.reset ∧ ∀ p : Params, p.wf = true → Safe (State.resetFor p)

/-- Every step keeps the invariant: buffers in canonical form inside their regions, exactly OBUF[0 : OBUF_LEN] and
VALUES[0 : VCOUNT] holding values, the wire bytes in OBUF those of CRC, EXPLEN an expected length (derived). -/
def Obligations.StepKeepsSafe : Prop := ∀ s t : State, Safe s → step s = .next t → Safe t

/-! ### The host's protocol (45_host_pipeline) -/

/-- IF STATUS != OK: FAIL goes on when STATUS is OK and otherwise ends the operation with the code read; the engine is
untouched. That resets still to come stay in the list is the model's choice (log 8). -/
def Obligations.FailUnlessOkStep : Prop :=
  ∀ (s : State) (rest : List Move), s.host.moves = .failUnlessOk :: rest →
    (s.status = .ok → step s = .next { s with host := { s.host with moves := rest } }) ∧
    (s.status ≠ .ok →
      step s = .next { s with host := { s.host with
        moves := rest.filter (fun m => m == Move.platformReset)
        outcome := .failed (s.status.code.setWidth 32) } })

/-- XMIT hands OBUF[0 : OBUF_LEN] to one write call; a write-timeout ends the operation with WriteTimeout (derived from
45_host_pipeline section 2; the timeout is a free value, log 4). -/
def Obligations.XmitSendsRequest : Prop :=
  ∀ (s : State) (frame : List Byte) (rest : List Move), s.host.moves = .xmit :: rest →
    frame.length = s.obufLen.toNat → s.obufLen.toNat ≤ 8 → Holds s.obuf 0 frame →
    step s = .next { s with host := { s.host with
      sent := s.host.sent ++ [frame]
      writeCalls := s.host.writeCalls + 1
      moves := if Config.txTimesOut s.host.writeCalls then rest.filter (fun m => m == Move.platformReset) else rest
      outcome := if Config.txTimesOut s.host.writeCalls then .writeTimeout else s.host.outcome } }

/-- The response read asks for min(EXPLEN, IBUF_SIZE) bytes and keeps at most that many, the first of the bytes drawn;
the engine is untouched (derived from 45_host_pipeline section 2; the bytes are a free value, log 4). -/
def Obligations.RecvExpectedStep : Prop :=
  ∀ (s : State) (rest : List Move), s.host.moves = .recvExpected :: rest →
    step s = .next { s with host := { s.host with
      moves := rest
      received := (Config.rxBytes s.host.readCalls).take (min s.explen.toNat s.params.size)
      readCalls := s.host.readCalls + 1 } }

/-- The transport calls made and those still possible never grow, so an operation makes at most one write and at most two
reads (derived from 45_host_pipeline section 3). -/
def Obligations.TransportCallsBounded : Prop :=
  (∀ s t : State, step s = .next t →
    t.host.writeCalls + writesIn t.host.moves ≤ s.host.writeCalls + writesIn s.host.moves ∧
    t.host.readCalls + readsIn t.host.moves ≤ s.host.readCalls + readsIn s.host.moves) ∧
  (∀ op : ReadOp, writesIn [.readOp op] = 1 ∧ readsIn [.readOp op] = 2)

/-- An unrecognised width or precision is reported as InvalidFormat after PLAN, with no transport call and no request
built (derived from 45_host_pipeline section 3). -/
def Obligations.InvalidFormatBeforeIO : Prop :=
  ∀ (s : State) (op : ReadOp) (rest : List Move), s.host.moves = .readOp op :: rest → op.runnable = true →
    (∃ d st c sg, op = .ints d st c none sg) ∨ (∃ d st c, op = .floats d st c none) →
    ∃ t, Host.Core.run core 4 s = .next t ∧ t.status = .invalidFormat ∧ t.host.outcome = .failed 0x2 ∧
      t.host.writeCalls = s.host.writeCalls ∧ t.host.readCalls = s.host.readCalls ∧
      t.host.moves = rest.filter (fun m => m == Move.platformReset) ∧
      t.obuf = s.obuf ∧ t.func = s.func ∧ t.qty = s.qty ∧ t.explen = s.explen

/-- A device address outside 0 to 255 is reported as InvalidAddress with no transport call (derived from
45_host_pipeline section 3). -/
def Obligations.InvalidAddressBeforeIO : Prop :=
  ∀ (s : State) (op : ReadOp) (rest : List Move), s.host.moves = .readOp op :: rest → op.runnable = true →
    (∀ d st c sg, op ≠ .ints d st c none sg) → (∀ d st c, op ≠ .floats d st c none) →
    0 ≤ op.args.2.2 → op.args.2.2 ≤ 16383 → op.args.1 < 0 ∨ 255 < op.args.1 →
    ∃ t, Host.Core.run core 8 s = .next t ∧ t.status = .invalidAddress ∧ t.host.outcome = .failed 0x1 ∧
      t.host.writeCalls = s.host.writeCalls ∧ t.host.readCalls = s.host.readCalls ∧
      t.host.moves = rest.filter (fun m => m == Move.platformReset) ∧ t.obuf = s.obuf

/-- LOADRESP of n bytes that fit IBUF takes n + 2 steps (the statement, n byte writes, the write of IBUF_LEN) and leaves
exactly those bytes as the input, every other IBUF byte as it was (derived from 30_encoding section 7). -/
def Obligations.LoadRespLoadsInput : Prop :=
  ∀ (s : State) (bytes : List Byte) (rest : List Move), s.host.moves = .loadResp bytes :: rest →
    bytes.length ≤ s.params.size →
    ∃ t, Host.Core.run core (bytes.length + 2) s = .next t ∧ InputHolds t bytes ∧
      (∀ k, bytes.length ≤ k → Memory.read t.ibuf k = Memory.read s.ibuf k) ∧
      t = { s with ibuf := t.ibuf, ibufLen := t.ibufLen, host := { s.host with moves := rest } }
end

