-- ==== Sys2Proof/Laws/Memory.lean ====
section
/-! SUPPORT. The laws of the buffer operations: read after write, the canonical form kept, what readRange answers. -/

namespace Sys2Proof.Laws

open Machine

variable {α : Type}

@[simp] theorem memory_read_nil (i : Nat) : Memory.read ([] : List (Nat × α)) i = none := rfl

theorem memory_read_write_same (m : List (Nat × α)) (i : Nat) (v : α) :
    Memory.read (Memory.write m i v) i = some v := by
  induction m with
  | nil => simp [Memory.write, Memory.read]
  | cons c m ih =>
    obtain ⟨k, w⟩ := c
    by_cases h1 : i < k
    · simp [Memory.write, Memory.read, h1]
    · by_cases h2 : i = k
      · simp [Memory.write, Memory.read, h2]
      · simp [Memory.write, Memory.read, h1, h2, ih, Ne.symm h2]

theorem memory_read_write_other (m : List (Nat × α)) {i j : Nat} (v : α) (h : j ≠ i) :
    Memory.read (Memory.write m i v) j = Memory.read m j := by
  induction m with
  | nil => simp [Memory.write, Memory.read, Ne.symm h]
  | cons c m ih =>
    obtain ⟨k, w⟩ := c
    by_cases h1 : i < k
    · simp [Memory.write, Memory.read, h1, Ne.symm h]
    · by_cases h2 : i = k
      · subst h2
        simp [Memory.write, Memory.read, Ne.symm h]
      · simp [Memory.write, Memory.read, h1, h2, ih]

theorem memory_wfFrom_write {hi : Nat} {m : List (Nat × α)} {lo i : Nat} (v : α)
    (hm : Memory.wfFrom hi lo m = true) (hlo : lo ≤ i) (hhi : i < hi) :
    Memory.wfFrom hi lo (Memory.write m i v) = true := by
  induction m generalizing lo with
  | nil => simp [Memory.write, Memory.wfFrom, hlo, hhi]
  | cons c m ih =>
    obtain ⟨k, w⟩ := c
    simp only [Memory.wfFrom, Bool.and_eq_true, decide_eq_true_eq] at hm
    by_cases h1 : i < k
    · simp [Memory.write, Memory.wfFrom, h1, hlo, hhi, hm]
    · by_cases h2 : i = k
      · subst h2
        simp [Memory.write, Memory.wfFrom, hlo, hhi, hm]
      · simp [Memory.write, Memory.wfFrom, h1, h2, hm, ih hm.2 (by omega)]

/-- A write inside the buffer keeps the canonical form. -/
theorem memory_wf_write {size : Nat} {m : List (Nat × α)} {i : Nat} (v : α)
    (hm : Memory.wf size m = true) (hi : i < size) : Memory.wf size (Memory.write m i v) = true :=
  memory_wfFrom_write v hm (Nat.zero_le i) hi

theorem memory_wfFrom_ofListFrom {hi o : Nat} (vs : List α) (h : o + vs.length ≤ hi) :
    Memory.wfFrom hi o (Memory.ofListFrom o vs) = true := by
  induction vs generalizing o with
  | nil => rfl
  | cons v vs ih =>
    simp only [List.length_cons] at h
    simp [Memory.ofListFrom, Memory.wfFrom, ih (o := o + 1) (by omega)]
    omega

/-- A buffer written whole by a command is in canonical form. -/
theorem memory_wf_ofList {size : Nat} (vs : List α) (h : vs.length ≤ size) :
    Memory.wf size (Memory.ofList vs) = true :=
  memory_wfFrom_ofListFrom vs (by omega)

theorem memory_read_ofListFrom_below {o i : Nat} (vs : List α) (h : i < o) :
    Memory.read (Memory.ofListFrom o vs) i = none := by
  induction vs generalizing o with
  | nil => rfl
  | cons v vs ih =>
    have hne : o ≠ i := by omega
    simp [Memory.ofListFrom, Memory.read, hne, ih (o := o + 1) (by omega)]

theorem memory_read_ofListFrom (o i : Nat) (vs : List α) :
    Memory.read (Memory.ofListFrom o vs) (o + i) = vs[i]? := by
  induction vs generalizing o i with
  | nil => simp [Memory.ofListFrom]
  | cons v vs ih =>
    cases i with
    | zero => simp [Memory.ofListFrom, Memory.read]
    | succ i =>
      have h := ih (o + 1) i
      rw [show o + 1 + i = o + (i + 1) by omega] at h
      simp [Memory.ofListFrom, Memory.read, h]

/-- R52: entry i of a buffer written whole is element i; an index past the elements holds no value. -/
@[simp] theorem memory_read_ofList (vs : List α) (i : Nat) : Memory.read (Memory.ofList vs) i = vs[i]? := by
  simpa [Memory.ofList] using memory_read_ofListFrom 0 i vs

/-- No index below the bound of a canonical tail is listed. -/
theorem memory_read_below {hi lo i : Nat} {m : List (Nat × α)} (hm : Memory.wfFrom hi lo m = true) (h : i < lo) :
    Memory.read m i = none := by
  induction m generalizing lo with
  | nil => rfl
  | cons c m ih =>
    obtain ⟨k, w⟩ := c
    simp only [Memory.wfFrom, Bool.and_eq_true, decide_eq_true_eq] at hm
    have hne : k ≠ i := by omega
    simp [Memory.read, hne, ih hm.2 (by omega)]

/-- Nothing is held outside a canonical buffer. -/
theorem memory_read_beyond {size i : Nat} {m : List (Nat × α)} (hm : Memory.wf size m = true) (h : size ≤ i) :
    Memory.read m i = none := by
  suffices H : ∀ lo, Memory.wfFrom size lo m = true → Memory.read m i = none from H 0 hm
  clear hm
  induction m with
  | nil => intros; rfl
  | cons c m ih =>
    obtain ⟨k, w⟩ := c
    intro lo hm
    simp only [Memory.wfFrom, Bool.and_eq_true, decide_eq_true_eq] at hm
    have hne : k ≠ i := by omega
    simp [Memory.read, hne, ih _ hm.2]

/-- readRange answers the bytes exactly when the range holds them. -/
theorem memory_readRange_ok {m : List (Nat × α)} {o n : Nat} {vs : List α} :
    Memory.readRange m o n = .ok vs ↔ vs.length = n ∧ Holds m o vs := by
  induction n generalizing o vs with
  | zero =>
    constructor
    · intro h
      cases h
      exact ⟨rfl, fun i hi => absurd hi (by simp)⟩
    · rintro ⟨h, -⟩
      simp [List.length_eq_zero_iff.mp h, Memory.readRange]
  | succ n ih =>
    constructor
    · intro h
      simp only [Memory.readRange] at h
      split at h
      · cases h
      · rename_i v hv
        split at h
        · cases h
        · rename_i ws hws
          cases h
          obtain ⟨hl, hh⟩ := ih.mp hws
          refine ⟨by simp [hl], fun i hi => ?_⟩
          cases i with
          | zero => simpa using hv
          | succ i =>
            have := hh i (by simpa using hi)
            rw [show o + 1 + i = o + (i + 1) by omega] at this
            simpa using this
    · rintro ⟨hl, hh⟩
      cases vs with
      | nil => simp at hl
      | cons v ws =>
        have h0 : Memory.read m o = some v := by simpa using hh 0 (by simp)
        have h1 : Memory.readRange m (o + 1) n = .ok ws := by
          refine ih.mpr ⟨by simpa using hl, fun i hi => ?_⟩
          have := hh (i + 1) (by simpa using hi)
          rw [show o + (i + 1) = o + 1 + i by omega] at this
          simpa using this
        simp [Memory.readRange, h0, h1]

/-- readRange stops at the first location that holds no value. -/
theorem memory_readRange_error {m : List (Nat × α)} {o n k : Nat} :
    Memory.readRange m o n = .error k ↔ FirstUnwritten m o n k := by
  induction n generalizing o with
  | zero =>
    simp only [Memory.readRange, reduceCtorEq, false_iff]
    rintro ⟨h1, h2, -⟩
    omega
  | succ n ih =>
    constructor
    · intro h
      simp only [Memory.readRange] at h
      split at h
      · rename_i hv
        cases h
        exact ⟨Nat.le_refl _, by omega, hv, fun i h1 h2 => absurd h1 (by omega)⟩
      · rename_i v hv
        split at h
        · rename_i j hj
          cases h
          obtain ⟨h1, h2, h3, h4⟩ := ih.mp hj
          refine ⟨by omega, by omega, h3, fun i hi hoi => ?_⟩
          by_cases hio : i = o
          · simp [hio, hv]
          · exact h4 i hi (by omega)
        · cases h
    · rintro ⟨h1, h2, h3, h4⟩
      by_cases hko : k = o
      · subst hko
        simp [Memory.readRange, h3]
      · obtain ⟨v, hv⟩ := Option.ne_none_iff_exists'.mp (h4 o (by omega) (Nat.le_refl _))
        have hr : Memory.readRange m (o + 1) n = .error k :=
          ih.mpr ⟨by omega, by omega, h3, fun i hi hoi => h4 i hi (by omega)⟩
        simp [Memory.readRange, hv, hr]

end Sys2Proof.Laws
end

