-- ==== Sys2Proof/Laws/State.lean ====
section
/-! SUPPORT. One lemma per field per update of State, so that no later proof unfolds a record update. -/

namespace Sys2Proof.Laws

open Machine

variable (s : State)

/-! ### State.writeIbuf -/

@[simp] theorem writeIbuf_params (i : Nat) (b : Byte) : (s.writeIbuf i b).params = s.params := rfl
@[simp] theorem writeIbuf_cmd (i : Nat) (b : Byte) : (s.writeIbuf i b).cmd = s.cmd := rfl
@[simp] theorem writeIbuf_status (i : Nat) (b : Byte) : (s.writeIbuf i b).status = s.status := rfl
@[simp] theorem writeIbuf_func (i : Nat) (b : Byte) : (s.writeIbuf i b).func = s.func := rfl
@[simp] theorem writeIbuf_devAddr (i : Nat) (b : Byte) : (s.writeIbuf i b).devAddr = s.devAddr := rfl
@[simp] theorem writeIbuf_start (i : Nat) (b : Byte) : (s.writeIbuf i b).start = s.start := rfl
@[simp] theorem writeIbuf_qty (i : Nat) (b : Byte) : (s.writeIbuf i b).qty = s.qty := rfl
@[simp] theorem writeIbuf_count (i : Nat) (b : Byte) : (s.writeIbuf i b).count = s.count := rfl
@[simp] theorem writeIbuf_ibufLen (i : Nat) (b : Byte) : (s.writeIbuf i b).ibufLen = s.ibufLen := rfl
@[simp] theorem writeIbuf_poff (i : Nat) (b : Byte) : (s.writeIbuf i b).poff = s.poff := rfl
@[simp] theorem writeIbuf_plen (i : Nat) (b : Byte) : (s.writeIbuf i b).plen = s.plen := rfl
@[simp] theorem writeIbuf_obufLen (i : Nat) (b : Byte) : (s.writeIbuf i b).obufLen = s.obufLen := rfl
@[simp] theorem writeIbuf_crc (i : Nat) (b : Byte) : (s.writeIbuf i b).crc = s.crc := rfl
@[simp] theorem writeIbuf_explen (i : Nat) (b : Byte) : (s.writeIbuf i b).explen = s.explen := rfl
@[simp] theorem writeIbuf_vcount (i : Nat) (b : Byte) : (s.writeIbuf i b).vcount = s.vcount := rfl
@[simp] theorem writeIbuf_ibuf (i : Nat) (b : Byte) : (s.writeIbuf i b).ibuf = Memory.write s.ibuf i b := rfl
@[simp] theorem writeIbuf_obuf (i : Nat) (b : Byte) : (s.writeIbuf i b).obuf = s.obuf := rfl
@[simp] theorem writeIbuf_values (i : Nat) (b : Byte) : (s.writeIbuf i b).values = s.values := rfl
@[simp] theorem writeIbuf_host (i : Nat) (b : Byte) : (s.writeIbuf i b).host = s.host := rfl

/-! ### State.putObuf -/

@[simp] theorem putObuf_params (bs : List Byte) (c : Half) : (s.putObuf bs c).params = s.params := rfl
@[simp] theorem putObuf_cmd (bs : List Byte) (c : Half) : (s.putObuf bs c).cmd = s.cmd := rfl
@[simp] theorem putObuf_status (bs : List Byte) (c : Half) : (s.putObuf bs c).status = s.status := rfl
@[simp] theorem putObuf_func (bs : List Byte) (c : Half) : (s.putObuf bs c).func = s.func := rfl
@[simp] theorem putObuf_devAddr (bs : List Byte) (c : Half) : (s.putObuf bs c).devAddr = s.devAddr := rfl
@[simp] theorem putObuf_start (bs : List Byte) (c : Half) : (s.putObuf bs c).start = s.start := rfl
@[simp] theorem putObuf_qty (bs : List Byte) (c : Half) : (s.putObuf bs c).qty = s.qty := rfl
@[simp] theorem putObuf_count (bs : List Byte) (c : Half) : (s.putObuf bs c).count = s.count := rfl
@[simp] theorem putObuf_ibufLen (bs : List Byte) (c : Half) : (s.putObuf bs c).ibufLen = s.ibufLen := rfl
@[simp] theorem putObuf_poff (bs : List Byte) (c : Half) : (s.putObuf bs c).poff = s.poff := rfl
@[simp] theorem putObuf_plen (bs : List Byte) (c : Half) : (s.putObuf bs c).plen = s.plen := rfl
@[simp] theorem putObuf_obufLen (bs : List Byte) (c : Half) : (s.putObuf bs c).obufLen = BitVec.ofNat 4 bs.length := rfl
@[simp] theorem putObuf_crc (bs : List Byte) (c : Half) : (s.putObuf bs c).crc = c := rfl
@[simp] theorem putObuf_explen (bs : List Byte) (c : Half) : (s.putObuf bs c).explen = s.explen := rfl
@[simp] theorem putObuf_vcount (bs : List Byte) (c : Half) : (s.putObuf bs c).vcount = s.vcount := rfl
@[simp] theorem putObuf_ibuf (bs : List Byte) (c : Half) : (s.putObuf bs c).ibuf = s.ibuf := rfl
@[simp] theorem putObuf_obuf (bs : List Byte) (c : Half) : (s.putObuf bs c).obuf = Memory.ofList bs := rfl
@[simp] theorem putObuf_values (bs : List Byte) (c : Half) : (s.putObuf bs c).values = s.values := rfl
@[simp] theorem putObuf_host (bs : List Byte) (c : Half) : (s.putObuf bs c).host = s.host := rfl

/-! ### State.putValues -/

@[simp] theorem putValues_params (vs : List Value) : (s.putValues vs).params = s.params := rfl
@[simp] theorem putValues_cmd (vs : List Value) : (s.putValues vs).cmd = s.cmd := rfl
@[simp] theorem putValues_status (vs : List Value) : (s.putValues vs).status = s.status := rfl
@[simp] theorem putValues_func (vs : List Value) : (s.putValues vs).func = s.func := rfl
@[simp] theorem putValues_devAddr (vs : List Value) : (s.putValues vs).devAddr = s.devAddr := rfl
@[simp] theorem putValues_start (vs : List Value) : (s.putValues vs).start = s.start := rfl
@[simp] theorem putValues_qty (vs : List Value) : (s.putValues vs).qty = s.qty := rfl
@[simp] theorem putValues_count (vs : List Value) : (s.putValues vs).count = s.count := rfl
@[simp] theorem putValues_ibufLen (vs : List Value) : (s.putValues vs).ibufLen = s.ibufLen := rfl
@[simp] theorem putValues_poff (vs : List Value) : (s.putValues vs).poff = s.poff := rfl
@[simp] theorem putValues_plen (vs : List Value) : (s.putValues vs).plen = s.plen := rfl
@[simp] theorem putValues_obufLen (vs : List Value) : (s.putValues vs).obufLen = s.obufLen := rfl
@[simp] theorem putValues_crc (vs : List Value) : (s.putValues vs).crc = s.crc := rfl
@[simp] theorem putValues_explen (vs : List Value) : (s.putValues vs).explen = s.explen := rfl
@[simp] theorem putValues_vcount (vs : List Value) : (s.putValues vs).vcount = BitVec.ofNat 32 vs.length := rfl
@[simp] theorem putValues_ibuf (vs : List Value) : (s.putValues vs).ibuf = s.ibuf := rfl
@[simp] theorem putValues_obuf (vs : List Value) : (s.putValues vs).obuf = s.obuf := rfl
@[simp] theorem putValues_values (vs : List Value) : (s.putValues vs).values = Memory.ofList vs := rfl
@[simp] theorem putValues_host (vs : List Value) : (s.putValues vs).host = s.host := rfl

/-! ### State.setMoves -/

@[simp] theorem setMoves_params (ms : List Move) : (s.setMoves ms).params = s.params := rfl
@[simp] theorem setMoves_cmd (ms : List Move) : (s.setMoves ms).cmd = s.cmd := rfl
@[simp] theorem setMoves_status (ms : List Move) : (s.setMoves ms).status = s.status := rfl
@[simp] theorem setMoves_func (ms : List Move) : (s.setMoves ms).func = s.func := rfl
@[simp] theorem setMoves_devAddr (ms : List Move) : (s.setMoves ms).devAddr = s.devAddr := rfl
@[simp] theorem setMoves_start (ms : List Move) : (s.setMoves ms).start = s.start := rfl
@[simp] theorem setMoves_qty (ms : List Move) : (s.setMoves ms).qty = s.qty := rfl
@[simp] theorem setMoves_count (ms : List Move) : (s.setMoves ms).count = s.count := rfl
@[simp] theorem setMoves_ibufLen (ms : List Move) : (s.setMoves ms).ibufLen = s.ibufLen := rfl
@[simp] theorem setMoves_poff (ms : List Move) : (s.setMoves ms).poff = s.poff := rfl
@[simp] theorem setMoves_plen (ms : List Move) : (s.setMoves ms).plen = s.plen := rfl
@[simp] theorem setMoves_obufLen (ms : List Move) : (s.setMoves ms).obufLen = s.obufLen := rfl
@[simp] theorem setMoves_crc (ms : List Move) : (s.setMoves ms).crc = s.crc := rfl
@[simp] theorem setMoves_explen (ms : List Move) : (s.setMoves ms).explen = s.explen := rfl
@[simp] theorem setMoves_vcount (ms : List Move) : (s.setMoves ms).vcount = s.vcount := rfl
@[simp] theorem setMoves_ibuf (ms : List Move) : (s.setMoves ms).ibuf = s.ibuf := rfl
@[simp] theorem setMoves_obuf (ms : List Move) : (s.setMoves ms).obuf = s.obuf := rfl
@[simp] theorem setMoves_values (ms : List Move) : (s.setMoves ms).values = s.values := rfl
@[simp] theorem setMoves_host (ms : List Move) : (s.setMoves ms).host = { s.host with moves := ms } := rfl

/-! ### State.setHost -/

@[simp] theorem setHost_params (h : HostSide) : (s.setHost h).params = s.params := rfl
@[simp] theorem setHost_cmd (h : HostSide) : (s.setHost h).cmd = s.cmd := rfl
@[simp] theorem setHost_status (h : HostSide) : (s.setHost h).status = s.status := rfl
@[simp] theorem setHost_func (h : HostSide) : (s.setHost h).func = s.func := rfl
@[simp] theorem setHost_devAddr (h : HostSide) : (s.setHost h).devAddr = s.devAddr := rfl
@[simp] theorem setHost_start (h : HostSide) : (s.setHost h).start = s.start := rfl
@[simp] theorem setHost_qty (h : HostSide) : (s.setHost h).qty = s.qty := rfl
@[simp] theorem setHost_count (h : HostSide) : (s.setHost h).count = s.count := rfl
@[simp] theorem setHost_ibufLen (h : HostSide) : (s.setHost h).ibufLen = s.ibufLen := rfl
@[simp] theorem setHost_poff (h : HostSide) : (s.setHost h).poff = s.poff := rfl
@[simp] theorem setHost_plen (h : HostSide) : (s.setHost h).plen = s.plen := rfl
@[simp] theorem setHost_obufLen (h : HostSide) : (s.setHost h).obufLen = s.obufLen := rfl
@[simp] theorem setHost_crc (h : HostSide) : (s.setHost h).crc = s.crc := rfl
@[simp] theorem setHost_explen (h : HostSide) : (s.setHost h).explen = s.explen := rfl
@[simp] theorem setHost_vcount (h : HostSide) : (s.setHost h).vcount = s.vcount := rfl
@[simp] theorem setHost_ibuf (h : HostSide) : (s.setHost h).ibuf = s.ibuf := rfl
@[simp] theorem setHost_obuf (h : HostSide) : (s.setHost h).obuf = s.obuf := rfl
@[simp] theorem setHost_values (h : HostSide) : (s.setHost h).values = s.values := rfl
@[simp] theorem setHost_host (h : HostSide) : (s.setHost h).host = h := rfl

/-! ### Reset -/

@[simp] theorem hwReset_params : s.hwReset.params = s.params := rfl
@[simp] theorem hwReset_cmd : s.hwReset.cmd = 0 := rfl
@[simp] theorem hwReset_status : s.hwReset.status = .idle := rfl
@[simp] theorem hwReset_func : s.hwReset.func = 0 := rfl
@[simp] theorem hwReset_devAddr : s.hwReset.devAddr = 0 := rfl
@[simp] theorem hwReset_start : s.hwReset.start = 0 := rfl
@[simp] theorem hwReset_qty : s.hwReset.qty = 0 := rfl
@[simp] theorem hwReset_count : s.hwReset.count = 0 := rfl
@[simp] theorem hwReset_ibufLen : s.hwReset.ibufLen = 0 := rfl
@[simp] theorem hwReset_poff : s.hwReset.poff = 0 := rfl
@[simp] theorem hwReset_plen : s.hwReset.plen = 0 := rfl
@[simp] theorem hwReset_obufLen : s.hwReset.obufLen = 0 := rfl
@[simp] theorem hwReset_crc : s.hwReset.crc = 0 := rfl
@[simp] theorem hwReset_explen : s.hwReset.explen = 0 := rfl
@[simp] theorem hwReset_vcount : s.hwReset.vcount = 0 := rfl
@[simp] theorem hwReset_ibuf : s.hwReset.ibuf = [] := rfl
@[simp] theorem hwReset_obuf : s.hwReset.obuf = [] := rfl
@[simp] theorem hwReset_values : s.hwReset.values = [] := rfl
@[simp] theorem hwReset_host : s.hwReset.host = s.host := rfl

@[simp] theorem resetFor_params (p : Params) : (State.resetFor p).params = p := rfl
@[simp] theorem resetFor_cmd (p : Params) : (State.resetFor p).cmd = 0 := rfl
@[simp] theorem resetFor_status (p : Params) : (State.resetFor p).status = .idle := rfl
@[simp] theorem resetFor_func (p : Params) : (State.resetFor p).func = 0 := rfl
@[simp] theorem resetFor_devAddr (p : Params) : (State.resetFor p).devAddr = 0 := rfl
@[simp] theorem resetFor_start (p : Params) : (State.resetFor p).start = 0 := rfl
@[simp] theorem resetFor_qty (p : Params) : (State.resetFor p).qty = 0 := rfl
@[simp] theorem resetFor_count (p : Params) : (State.resetFor p).count = 0 := rfl
@[simp] theorem resetFor_ibufLen (p : Params) : (State.resetFor p).ibufLen = 0 := rfl
@[simp] theorem resetFor_poff (p : Params) : (State.resetFor p).poff = 0 := rfl
@[simp] theorem resetFor_plen (p : Params) : (State.resetFor p).plen = 0 := rfl
@[simp] theorem resetFor_obufLen (p : Params) : (State.resetFor p).obufLen = 0 := rfl
@[simp] theorem resetFor_crc (p : Params) : (State.resetFor p).crc = 0 := rfl
@[simp] theorem resetFor_explen (p : Params) : (State.resetFor p).explen = 0 := rfl
@[simp] theorem resetFor_vcount (p : Params) : (State.resetFor p).vcount = 0 := rfl
@[simp] theorem resetFor_ibuf (p : Params) : (State.resetFor p).ibuf = [] := rfl
@[simp] theorem resetFor_obuf (p : Params) : (State.resetFor p).obuf = [] := rfl
@[simp] theorem resetFor_values (p : Params) : (State.resetFor p).values = [] := rfl
@[simp] theorem resetFor_host (p : Params) : (State.resetFor p).host = HostSide.initial := rfl

/-! ### Host register writes: the one register changes, its kept bits only (R77) -/

@[simp] theorem writeReg_cmd (v : Word) : s.writeReg .cmd v = { s with cmd := v } := rfl
@[simp] theorem writeReg_func (v : Word) : s.writeReg .func v = { s with func := v.setWidth 8 } := rfl
@[simp] theorem writeReg_devAddr (v : Word) : s.writeReg .devAddr v = { s with devAddr := v } := rfl
@[simp] theorem writeReg_start (v : Word) : s.writeReg .start v = { s with start := v } := rfl
@[simp] theorem writeReg_qty (v : Word) : s.writeReg .qty v = { s with qty := v } := rfl
@[simp] theorem writeReg_count (v : Word) : s.writeReg .count v = { s with count := v } := rfl
@[simp] theorem writeReg_ibufLen (v : Word) : s.writeReg .ibufLen v = { s with ibufLen := v.setWidth 16 } := rfl
@[simp] theorem writeReg_poff (v : Word) : s.writeReg .poff v = { s with poff := v.setWidth 16 } := rfl
@[simp] theorem writeReg_plen (v : Word) : s.writeReg .plen v = { s with plen := v.setWidth 16 } := rfl

@[simp] theorem writeReg_params (r : Reg) (v : Word) : (s.writeReg r v).params = s.params := by cases r <;> rfl
@[simp] theorem writeReg_status (r : Reg) (v : Word) : (s.writeReg r v).status = s.status := by cases r <;> rfl
@[simp] theorem writeReg_obufLen (r : Reg) (v : Word) : (s.writeReg r v).obufLen = s.obufLen := by cases r <;> rfl
@[simp] theorem writeReg_crc (r : Reg) (v : Word) : (s.writeReg r v).crc = s.crc := by cases r <;> rfl
@[simp] theorem writeReg_explen (r : Reg) (v : Word) : (s.writeReg r v).explen = s.explen := by cases r <;> rfl
@[simp] theorem writeReg_vcount (r : Reg) (v : Word) : (s.writeReg r v).vcount = s.vcount := by cases r <;> rfl
@[simp] theorem writeReg_ibuf (r : Reg) (v : Word) : (s.writeReg r v).ibuf = s.ibuf := by cases r <;> rfl
@[simp] theorem writeReg_obuf (r : Reg) (v : Word) : (s.writeReg r v).obuf = s.obuf := by cases r <;> rfl
@[simp] theorem writeReg_values (r : Reg) (v : Word) : (s.writeReg r v).values = s.values := by cases r <;> rfl
@[simp] theorem writeReg_host (r : Reg) (v : Word) : (s.writeReg r v).host = s.host := by cases r <;> rfl

end Sys2Proof.Laws
end

