-- ==== Sys2Proof/Laws/Commands.lean ====
section
/-! SUPPORT. What each shared operation of the commands can do, said once. -/

namespace Sys2Proof.Laws

open Machine

variable {s t : State} {c : Status}

/-! ### How a command ends -/

theorem raise_eq (c : Status) (s : State) : raise c s = .next { s with status := c } := rfl

theorem finish_eq (s : State) : finish s = .next { s with status := .ok } := rfl

theorem raise_next (h : raise c s = .next t) : t = { s with status := c } := by cases h; rfl

theorem finish_next (h : finish s = .next t) : t = { s with status := .ok } := by cases h; rfl

/-! ### The checks a command makes before it goes on -/

/-- withLength in bounds: the command goes on with IBUF_LEN. -/
theorem withLength_in {k : Nat → Host.Outcome State Fault Refusal} (h : LengthInBounds s) :
    withLength s k = k s.ibufLen.toNat := if_neg (by simpa using h)

/-- withLength out of bounds: BufferBounds. -/
theorem withLength_out {k : Nat → Host.Outcome State Fault Refusal} (h : s.params.size < s.ibufLen.toNat) :
    withLength s k = raise .bufferBounds s := if_pos h

/-- withWindow in bounds: the command goes on with POFF and PLEN. -/
theorem withWindow_in {k : Nat → Nat → Host.Outcome State Fault Refusal} (h : WindowInBounds s) :
    withWindow s k = k s.poff.toNat s.plen.toNat := by
  unfold withWindow
  rw [withLength_in h.1]
  exact if_neg (fun hb => absurd (h.2 hb.1) (by omega))

/-- withWindow out of bounds: BufferBounds. -/
theorem withWindow_out {k : Nat → Nat → Host.Outcome State Fault Refusal} (h : ¬ WindowInBounds s) :
    withWindow s k = raise .bufferBounds s := by
  by_cases hl : LengthInBounds s
  · unfold withWindow
    rw [withLength_in hl]
    refine if_pos ?_
    by_contra hb
    exact h ⟨hl, fun hp => by omega⟩
  · exact withLength_out (Nat.lt_of_not_le hl)

/-- withBytes on a range that holds bytes: the command goes on with them. -/
theorem withBytes_holds {o n : Nat} {bs : List Byte} {k : List Byte → Host.Outcome State Fault Refusal}
    (hl : bs.length = n) (h : Holds s.ibuf o bs) : withBytes s o n k = k bs := by
  have hr : Memory.readRange s.ibuf o n = .ok bs := memory_readRange_ok.mpr ⟨hl, h⟩
  simp [withBytes, hr]

/-- withBytes on a range with an unwritten byte: the first one faults (R60). -/
theorem withBytes_unwritten {o n i : Nat} {k : List Byte → Host.Outcome State Fault Refusal}
    (h : FirstUnwritten s.ibuf o n i) : withBytes s o n k = .fault (.unwritten (.ibuf i)) := by
  have hr : Memory.readRange s.ibuf o n = .error i := memory_readRange_error.mpr h
  simp [withBytes, hr]

/-- Everything withBytes can do. -/
theorem withBytes_cases (s : State) (o n : Nat) (k : List Byte → Host.Outcome State Fault Refusal) :
    (∃ bs, bs.length = n ∧ Holds s.ibuf o bs ∧ withBytes s o n k = k bs) ∨
    (∃ i, FirstUnwritten s.ibuf o n i ∧ withBytes s o n k = .fault (.unwritten (.ibuf i))) := by
  cases hr : Memory.readRange s.ibuf o n with
  | ok bs =>
    obtain ⟨hl, hh⟩ := memory_readRange_ok.mp hr
    exact .inl ⟨bs, hl, hh, withBytes_holds hl hh⟩
  | error i =>
    have hi := memory_readRange_error.mp hr
    exact .inr ⟨i, hi, withBytes_unwritten hi⟩

/-- Everything withWindow can do. -/
theorem withWindow_cases (s : State) (k : Nat → Nat → Host.Outcome State Fault Refusal) :
    (WindowInBounds s ∧ withWindow s k = k s.poff.toNat s.plen.toNat) ∨
    (¬ WindowInBounds s ∧ withWindow s k = raise .bufferBounds s) := by
  by_cases h : WindowInBounds s
  · exact .inl ⟨h, withWindow_in h⟩
  · exact .inr ⟨h, withWindow_out h⟩

/-- Everything withLength can do. -/
theorem withLength_cases (s : State) (k : Nat → Host.Outcome State Fault Refusal) :
    (LengthInBounds s ∧ withLength s k = k s.ibufLen.toNat) ∨
    (¬ LengthInBounds s ∧ withLength s k = raise .bufferBounds s) := by
  by_cases h : LengthInBounds s
  · exact .inl ⟨h, withLength_in h⟩
  · exact .inr ⟨h, withLength_out (Nat.lt_of_not_le h)⟩

/-! ### The shared bodies -/

/-- decodeChunks on a window of COUNT·W bytes (R201, R210). -/
theorem decodeChunks_holds {W : Nat} {sgn : Bool} {p : List Byte} (hw : WindowHolds s p)
    (hl : s.plen.toNat = s.count.toNat * W) :
    decodeChunks W sgn s = finish (s.putValues (chunkValues W sgn s.count.toNat p)) := by
  unfold decodeChunks
  rw [withWindow_in hw.1, if_neg (by simpa using hl), withBytes_holds hw.2.1 hw.2.2]

/-- Everything decodeChunks can do when it answers a next state. -/
theorem decodeChunks_next {W : Nat} {sgn : Bool} (h : decodeChunks W sgn s = .next t) :
    (¬ WindowInBounds s ∧ t = { s with status := .bufferBounds }) ∨
    (s.plen.toNat ≠ s.count.toNat * W ∧ t = { s with status := .payloadLength }) ∨
    (∃ p, WindowHolds s p ∧ s.plen.toNat = s.count.toNat * W ∧
      t = { s.putValues (chunkValues W sgn s.count.toNat p) with status := .ok }) := by
  unfold decodeChunks at h
  obtain ⟨hw, he⟩ | ⟨hw, he⟩ := withWindow_cases s (fun o l =>
    if l ≠ s.count.toNat * W then raise .payloadLength s
    else withBytes s o l fun p => finish (s.putValues (chunkValues W sgn s.count.toNat p)))
  · rw [he] at h
    split at h
    · rename_i hl
      exact .inr (.inl ⟨hl, raise_next h⟩)
    · rename_i hl
      obtain ⟨p, hpl, hp, hb⟩ | ⟨i, -, hb⟩ := withBytes_cases s s.poff.toNat s.plen.toNat
        (fun p => finish (s.putValues (chunkValues W sgn s.count.toNat p)))
      · rw [hb] at h
        exact .inr (.inr ⟨p, ⟨hw, hpl, hp⟩, by simpa using hl, finish_next h⟩)
      · rw [hb] at h
        cases h
  · rw [he] at h
    exact .inl ⟨hw, raise_next h⟩

/-- Everything plan can do when it answers a next state (R233). -/
theorem plan_next {fn : Byte} {rpv : Nat} (h : plan fn rpv s = .next t) :
    (0xFFFF < s.count.toNat * rpv ∧ t = { s with status := .fieldRange }) ∨
    (s.count.toNat * rpv ≤ 0xFFFF ∧
      t = { s with func := fn, qty := BitVec.ofNat 32 (s.count.toNat * rpv),
                   explen := BitVec.ofNat 32 (expectedLength (s.count.toNat * rpv)), status := .ok }) := by
  unfold plan at h
  dsimp only at h
  split at h
  · rename_i hq
    exact .inl ⟨hq, raise_next h⟩
  · rename_i hq
    exact .inr ⟨Nat.le_of_not_lt hq, finish_next h⟩

/-- plan within the 16-bit range completes (R233). -/
theorem plan_fits {fn : Byte} {rpv : Nat} (h : s.count.toNat * rpv ≤ 0xFFFF) :
    plan fn rpv s =
      .next { s with func := fn, qty := BitVec.ofNat 32 (s.count.toNat * rpv),
                     explen := BitVec.ofNat 32 (expectedLength (s.count.toNat * rpv)), status := .ok } := by
  unfold plan
  dsimp only
  rw [if_neg (by omega)]
  rfl

/-! ### Byte sequences -/

@[simp] theorem be_nil : be [] = 0 := rfl

theorem be_append_singleton (bs : List Byte) (b : Byte) : be (bs ++ [b]) = be bs * 256 + b.toNat := by
  simp [be]

theorem be_lt (bs : List Byte) : be bs < 256 ^ bs.length := by
  induction bs using List.reverseRecOn with
  | nil => simp
  | append_singleton bs b ih =>
    have hb := b.isLt
    rw [be_append_singleton, List.length_append, List.length_singleton, Nat.pow_succ]
    omega

theorem be_foldl (bs : List Byte) (a : Nat) :
    bs.foldl (fun acc b => acc * 256 + b.toNat) a = a * 256 ^ bs.length + be bs := by
  induction bs using List.reverseRecOn with
  | nil => simp
  | append_singleton bs b ih =>
    rw [List.foldl_append, ih, be_append_singleton, List.length_append, List.length_singleton]
    simp only [List.foldl_cons, List.foldl_nil]
    ring

/-- be of a sequence is its first part shifted left by the second part's bytes, plus the second part. -/
theorem be_append (as bs : List Byte) : be (as ++ bs) = be as * 256 ^ bs.length + be bs := by
  rw [be, List.foldl_append, be_foldl]
  rfl

@[simp] theorem chunkValues_length (W : Nat) (sgn : Bool) (c : Nat) (p : List Byte) :
    (chunkValues W sgn c p).length = c := by
  simp [chunkValues]

@[simp] theorem requestFrame_length (a f : Byte) (st q : Half) : (requestFrame a f st q).length = 8 := rfl

@[simp] theorem crcBytes_length (bs : List Byte) : (crcBytes bs).length = 2 := rfl

theorem crcFrom_append (r : Half) (as bs : List Byte) : crcFrom r (as ++ bs) = crcFrom (crcFrom r as) bs := by
  simp [crcFrom]

theorem padded_length (p : List Byte) (c : Nat) : (padded p c).length = c := by
  simp [padded]
  omega

end Sys2Proof.Laws
end

