-- ==== Sys2Proof/Laws/Exec.lean ====
section
/-! SUPPORT. Everything a command can do when it answers a next state: one lemma per meaning that is not a shared
body, and one for exec as a whole. -/

namespace Sys2Proof.Laws

open Machine

variable {s t : State}

/-- Everything CRC16 can do when it answers a next state (R133). -/
theorem execCrc16_next (h : execCrc16 s = .next t) :
    (¬ LengthInBounds s ∧ t = { s with status := .bufferBounds }) ∨
    (∃ f, InputHolds s f ∧ t = { s.putObuf (crcBytes f) (crc16 f) with status := .ok }) := by
  unfold execCrc16 at h
  obtain ⟨hl, he⟩ | ⟨hl, he⟩ := withLength_cases s
    (fun n => withBytes s 0 n fun bytes => finish (s.putObuf (crcBytes bytes) (crc16 bytes)))
  · rw [he] at h
    obtain ⟨f, hf, hh, hb⟩ | ⟨i, -, hb⟩ := withBytes_cases s 0 s.ibufLen.toNat
      (fun bytes => finish (s.putObuf (crcBytes bytes) (crc16 bytes)))
    · rw [hb] at h
      exact .inr ⟨f, ⟨hl, hf, hh⟩, finish_next h⟩
    · rw [hb] at h
      cases h
  · rw [he] at h
    exact .inl ⟨hl, raise_next h⟩

/-- Everything BUILD_REQ can do (R152). -/
theorem execBuildReq_next (h : execBuildReq s = .next t) :
    ((s.devAddr.toInt < 0 ∨ s.devAddr.toInt > 255) ∧ t = { s with status := .invalidAddress }) ∨
    ((s.start.toNat > 0xFFFF ∨ s.qty.toNat > 0xFFFF) ∧ t = { s with status := .fieldRange }) ∨
    (0 ≤ s.devAddr.toInt ∧ s.devAddr.toInt ≤ 255 ∧ s.start.toNat ≤ 0xFFFF ∧ s.qty.toNat ≤ 0xFFFF ∧
      t = { s.putObuf
              (requestFrame (s.devAddr.setWidth 8) s.func (s.start.setWidth 16) (s.qty.setWidth 16))
              (crc16 (requestBody (s.devAddr.setWidth 8) s.func (s.start.setWidth 16) (s.qty.setWidth 16)))
            with status := .ok }) := by
  unfold execBuildReq at h
  split at h
  · exact .inl ⟨‹_›, raise_next h⟩
  · split at h
    · exact .inr (.inl ⟨‹_›, raise_next h⟩)
    · exact .inr (.inr ⟨by omega, by omega, by omega, by omega, finish_next h⟩)

/-- Everything VALIDATE can do when it answers a next state (R172). -/
theorem execValidate_next (h : execValidate s = .next t) :
    (∃ c ∈ [Status.bufferBounds, .noResponse, .crcMismatch, .unexpectedFunction], t = { s with status := c }) ∨
    t = { s with poff := 3, plen := BitVec.ofNat 16 (s.ibufLen.toNat - 5), status := .ok } := by
  unfold execValidate withLength at h
  split at h
  · exact .inl ⟨_, by decide, raise_next h⟩
  dsimp only at h
  split at h
  · exact .inl ⟨_, by decide, raise_next h⟩
  unfold withBytes at h
  split at h
  · cases h
  split at h
  · exact .inl ⟨_, by decide, raise_next h⟩
  dsimp only at h
  split at h
  · exact .inl ⟨_, by decide, raise_next h⟩
  split at h
  · exact .inl ⟨_, by decide, raise_next h⟩
  exact .inr (finish_next h)

/-- Everything DECODE_BITS can do when it answers a next state (R191). -/
theorem execDecodeBits_next (h : execDecodeBits s = .next t) :
    t = { s with status := .bufferBounds } ∨
    (∃ p, WindowHolds s p ∧ s.params.bitMode = .asObserved ∧
      t = { s.putValues ((digits p).map bitValue) with status := .ok }) ∨
    (∃ p, WindowHolds s p ∧ s.params.bitMode = .padded ∧ s.count.toNat ≤ s.params.vcap ∧
      t = { s.putValues ((padded p s.count.toNat).map bitValue) with status := .ok }) := by
  unfold execDecodeBits at h
  by_cases hw : WindowInBounds s
  · rw [withWindow_in hw] at h
    split at h
    · rename_i hm
      obtain ⟨p, hl, hh, hb⟩ | ⟨i, -, hb⟩ := withBytes_cases s s.poff.toNat s.plen.toNat
        (fun p => finish (s.putValues ((digits p).map bitValue)))
      · rw [hb] at h
        exact .inr (.inl ⟨p, ⟨hw, hl, hh⟩, hm, finish_next h⟩)
      · rw [hb] at h
        cases h
    · rename_i hm
      split at h
      · exact .inl (raise_next h)
      · obtain ⟨p, hl, hh, hb⟩ | ⟨i, -, hb⟩ := withBytes_cases s s.poff.toNat s.plen.toNat
          (fun p => finish (s.putValues ((padded p s.count.toNat).map bitValue)))
        · rw [hb] at h
          exact .inr (.inr ⟨p, ⟨hw, hl, hh⟩, hm, by omega, finish_next h⟩)
        · rw [hb] at h
          cases h
  · rw [withWindow_out hw] at h
    exact .inl (raise_next h)

/-- The shape of every next state a command can answer. -/
inductive ExecEffect (s t : State) : Instr → Prop where
  /-- A failure writes STATUS only. -/
  | failed (i : Instr) (c : Status) (hok : c ≠ .ok) (hidle : c ≠ .idle) (h : t = { s with status := c }) :
      ExecEffect s t i
  /-- CRC16 or BUILD_REQ. -/
  | frame (i : Instr) (hi : i ∈ [Instr.crc16, .buildReq]) (bytes : List Byte) (c : Half)
      (h : t = { s.putObuf bytes c with status := .ok }) : ExecEffect s t i
  /-- VALIDATE. -/
  | window (n : Half) (h : t = { s with poff := 3, plen := n, status := .ok }) : ExecEffect s t .validate
  /-- A decode command. -/
  | values (i : Instr)
      (hi : i ∈ [Instr.decodeBits, .decodeIntU16, .decodeIntS16, .decodeIntU32, .decodeIntS32, .decodeIntU64,
        .decodeIntS64, .decodeFloatF32, .decodeFloatF64])
      (vs : List Value) (h : t = { s.putValues vs with status := .ok }) : ExecEffect s t i
  /-- A PLAN command. -/
  | plan (i : Instr)
      (hi : i ∈ [Instr.planCoils, .planDiscrete, .planInt16, .planInt32, .planInt64, .planFloat32, .planFloat64])
      (fn : Byte) (q e : Word) (h : t = { s with func := fn, qty := q, explen := e, status := .ok }) :
      ExecEffect s t i

/-- Everything exec can do when it answers a next state. -/
theorem exec_effect {i : Instr} (h : exec i s = .next t) : ExecEffect s t i := by
  have chunks : ∀ (i : Instr) (W : Nat) (sgn : Bool),
      i ∈ [Instr.decodeBits, .decodeIntU16, .decodeIntS16, .decodeIntU32, .decodeIntS32, .decodeIntU64,
        .decodeIntS64, .decodeFloatF32, .decodeFloatF64] →
      decodeChunks W sgn s = .next t → ExecEffect s t i := by
    intro i W sgn hi h
    obtain ⟨-, h⟩ | ⟨-, h⟩ | ⟨p, -, -, h⟩ := decodeChunks_next h
    · exact .failed _ _ (by decide) (by decide) h
    · exact .failed _ _ (by decide) (by decide) h
    · exact .values _ hi _ h
  have plans : ∀ (i : Instr) (fn : Byte) (rpv : Nat),
      i ∈ [Instr.planCoils, .planDiscrete, .planInt16, .planInt32, .planInt64, .planFloat32, .planFloat64] →
      Machine.plan fn rpv s = .next t → ExecEffect s t i := by
    intro i fn rpv hi h
    obtain ⟨-, h⟩ | ⟨-, h⟩ := plan_next h
    · exact .failed _ _ (by decide) (by decide) h
    · exact .plan _ hi _ _ _ h
  cases i
  case crc16 =>
    obtain ⟨-, h⟩ | ⟨f, -, h⟩ := execCrc16_next h
    · exact .failed _ _ (by decide) (by decide) h
    · exact .frame _ (by decide) _ _ h
  case buildReq =>
    obtain ⟨-, h⟩ | ⟨-, h⟩ | ⟨-, -, -, -, h⟩ := execBuildReq_next h
    · exact .failed _ _ (by decide) (by decide) h
    · exact .failed _ _ (by decide) (by decide) h
    · exact .frame _ (by decide) _ _ h
  case validate =>
    obtain ⟨c, hc, h⟩ | h := execValidate_next h
    · exact .failed _ c (by rintro rfl; revert hc; decide) (by rintro rfl; revert hc; decide) h
    · exact .window _ h
  case decodeBits =>
    obtain h | ⟨p, -, -, h⟩ | ⟨p, -, -, -, h⟩ := execDecodeBits_next h
    · exact .failed _ _ (by decide) (by decide) h
    · exact .values _ (by decide) _ h
    · exact .values _ (by decide) _ h
  all_goals first | exact chunks _ _ _ (by decide) h | exact plans _ _ _ (by decide) h

/-- No command touches CMD, the parameters, IBUF, the operands it only reads, or the host's side. -/
theorem execute_same {w : Word} (h : execute w s = .next t) :
    t.params = s.params ∧ t.cmd = s.cmd ∧ t.host = s.host ∧ t.ibuf = s.ibuf ∧ t.devAddr = s.devAddr ∧
    t.start = s.start ∧ t.count = s.count ∧ t.ibufLen = s.ibufLen := by
  unfold execute at h
  split at h
  · cases h; simp
  · cases h; simp
  · cases exec_effect h <;> subst_vars <;> simp

/-- withBytes before a body that always completes: a next state, or the first unwritten byte. -/
theorem withBytes_total {o n : Nat} {k : List Byte → Host.Outcome State Fault Refusal}
    (hk : ∀ b, ∃ t, k b = .next t) :
    (∃ t, withBytes s o n k = .next t) ∨
    ∃ i, FirstUnwritten s.ibuf o n i ∧ withBytes s o n k = .fault (.unwritten (.ibuf i)) := by
  obtain ⟨bs, -, -, hb⟩ | h := withBytes_cases s o n k
  · obtain ⟨t, ht⟩ := hk bs
    exact .inl ⟨t, hb.trans ht⟩
  · exact .inr h

end Sys2Proof.Laws
end

