-- ==== Sys2Proof/Laws/Bus.lean ====
section
/-! SUPPORT. What the host's accesses can do: which element an offset selects, which accesses are accepted, what a read
depends on, and that no operation on the state leaves the canonical form. -/

namespace Sys2Proof.Laws

open Machine

variable {s t : State} {p : Params} {off : Word} {n : Nat}

theorem size_le (p : Params) : p.size ≤ 65535 := by
  have h := p.ibufSize.isLt
  unfold Params.size
  omega

/-- An offset below 0x3C that is a multiple of 4 is the offset of a register, and no other is. -/
theorem regAt_eq_some {k : Nat} {r : Reg} : regAt k = some r ↔ k = r.index := by
  constructor
  · intro h
    unfold regAt at h
    split at h <;> cases h <;> rfl
  · rintro rfl
    cases r <;> rfl

theorem locate_reg {r : Reg} : locate p off = some (.reg r) ↔ off = r.offset := by
  constructor
  · intro h
    unfold locate at h
    split_ifs at h with h1 h2 <;> try cases h
    obtain ⟨r', hr, he⟩ := Option.map_eq_some_iff.mp h
    cases he
    apply BitVec.eq_of_toNat_eq
    have hi := regAt_eq_some.mp hr
    rw [Reg.offset, BitVec.toNat_ofNat]
    omega
  · rintro rfl
    cases r <;> rfl

theorem locate_ibuf {i : Nat} : locate p off = some (.ibuf i) ↔ off.toNat = 0x10000 + i ∧ i < p.size := by
  have hs := size_le p
  unfold locate ibufBase obufBase valuesBase obufSize
  constructor
  · intro h
    split_ifs at h with h1 h2 h3 h4 h5 h6 <;>
      first
      | (injection h with h; injection h with h; omega)
      | (exact absurd h (by simp))
  · rintro ⟨h1, h2⟩
    rw [if_neg (by omega), if_pos (by omega), show off.toNat - 0x10000 = i by omega]

theorem locate_obuf {i : Nat} : locate p off = some (.obuf i) ↔ off.toNat = 0x20000 + i ∧ i < 8 := by
  have hs := size_le p
  unfold locate ibufBase obufBase valuesBase obufSize
  constructor
  · intro h
    split_ifs at h with h1 h2 h3 h4 h5 h6 <;>
      first
      | (injection h with h; injection h with h; omega)
      | (exact absurd h (by simp))
  · rintro ⟨h1, h2⟩
    rw [if_neg (by omega), if_neg (by omega), if_pos (by omega), show off.toNat - 0x20000 = i by omega]

theorem locate_valueWord {j : Nat} :
    locate p off = some (.valueWord j) ↔ off.toNat = 0x1000000 + 4 * j ∧ j < 2 * p.vcap := by
  have hs := size_le p
  unfold locate ibufBase obufBase valuesBase obufSize
  constructor
  · intro h
    split_ifs at h with h1 h2 h3 h4 h5 h6 <;>
      first
      | (injection h with h; injection h with h; omega)
      | (exact absurd h (by simp))
  · rintro ⟨h1, h2⟩
    rw [if_neg (by omega), if_neg (by omega), if_neg (by omega), if_pos (by omega), if_pos (by omega),
      show (off.toNat - 0x1000000) / 4 = j by omega]

/-- R78: an access is accepted at the one width of the element its offset selects. -/
theorem accepted_iff {l : Loc} : accepted p off n = some l ↔ locate p off = some l ∧ n = l.width := by
  unfold accepted
  split
  · rename_i h
    simp [h]
  · rename_i l' h
    split
    · rename_i hn
      constructor
      · intro he
        cases he
        exact ⟨h, hn⟩
      · rintro ⟨he, -⟩
        exact h.symm.trans he
    · rename_i hn
      constructor
      · intro he
        cases he
      · rintro ⟨he, hw⟩
        cases h.symm.trans he
        exact absurd hw hn

theorem accepted_reg (p : Params) (r : Reg) : accepted p r.offset 4 = some (.reg r) :=
  accepted_iff.mpr ⟨locate_reg.mpr rfl, rfl⟩

theorem accepted_ibuf {i : Nat} (hi : i < p.size) :
    accepted p (BitVec.ofNat 32 (0x10000 + i)) 1 = some (.ibuf i) := by
  have hs := size_le p
  refine accepted_iff.mpr ⟨locate_ibuf.mpr ⟨?_, hi⟩, rfl⟩
  rw [BitVec.toNat_ofNat]
  omega

theorem accepted_obuf {i : Nat} (hi : i < 8) : accepted p (BitVec.ofNat 32 (0x20000 + i)) 1 = some (.obuf i) := by
  refine accepted_iff.mpr ⟨locate_obuf.mpr ⟨?_, hi⟩, rfl⟩
  rw [BitVec.toNat_ofNat]
  omega

theorem accepted_valueWord {j : Nat} (hj : j < 2 * p.vcap) :
    accepted p (BitVec.ofNat 32 (0x1000000 + 4 * j)) 4 = some (.valueWord j) := by
  have hs := size_le p
  have hv : p.vcap = 8 * p.size := rfl
  refine accepted_iff.mpr ⟨locate_valueWord.mpr ⟨?_, hj⟩, rfl⟩
  rw [BitVec.toNat_ofNat]
  omega

/-- A host read of a register answers it (R76). -/
theorem memRead_reg (s : State) (r : Reg) : memRead s r.offset 4 = .ok (s.readReg r) := by
  unfold memRead
  rw [accepted_reg]
  rfl

/-- A host read depends on the parameters, on the register it names and on the buffer it lies in. -/
theorem memRead_congr (hp : t.params = s.params) (hr : ∀ r, off = Reg.offset r → t.readReg r = s.readReg r)
    (hi : ∀ k, Memory.read t.ibuf k = Memory.read s.ibuf k)
    (ho : (∀ k, Memory.read t.obuf k = Memory.read s.obuf k) ∨
      ¬ (0x00020000 ≤ off.toNat ∧ off.toNat < 0x00020008))
    (hv : (∀ k, Memory.read t.values k = Memory.read s.values k) ∨
      (off.toNat < 0x01000000 ∨ 0x01000000 + 8 * s.params.vcap ≤ off.toNat)) :
    memRead t off n = memRead s off n := by
  unfold memRead
  rw [hp]
  cases ha : accepted s.params off n with
  | none => rfl
  | some l =>
    have hl := (accepted_iff.mp ha).1
    cases l with
    | reg r => simp only [readLoc, hr r (locate_reg.mp hl)]
    | ibuf i => simp only [readLoc, hi]
    | obuf i =>
      obtain ho | ho := ho
      · simp only [readLoc, ho]
      · have := locate_obuf.mp hl
        omega
    | valueWord j =>
      obtain hv | hv := hv
      · simp only [readLoc, hv]
      · have := locate_valueWord.mp hl
        omega

/-- Everything a host write can do when it answers a next state. -/
theorem memWrite_next {v : Word} (h : memWrite s off n v = .next t) :
    (off = Reg.offset .cmd ∧ n = 4 ∧ execute v (s.writeReg .cmd v) = .next t) ∨
    (∃ r, off = Reg.offset r ∧ n = 4 ∧ r.hostWritable = true ∧ r ≠ .cmd ∧ t = s.writeReg r v) ∨
    (∃ i, off.toNat = 0x10000 + i ∧ i < s.params.size ∧ n = 1 ∧ t = s.writeIbuf i (v.setWidth 8)) := by
  unfold memWrite at h
  split at h
  · rename_i ha
    obtain ⟨hl, hn⟩ := accepted_iff.mp ha
    exact .inl ⟨locate_reg.mp hl, hn, h⟩
  · rename_i r hr ha
    obtain ⟨hl, hn⟩ := accepted_iff.mp ha
    split at h
    · cases h
      exact .inr (.inl ⟨r, locate_reg.mp hl, hn, ‹_›, fun he => hr (by rw [he]), rfl⟩)
    · cases h
  · rename_i i ha
    obtain ⟨hl, hn⟩ := accepted_iff.mp ha
    cases h
    exact .inr (.inr ⟨i, (locate_ibuf.mp hl).1, (locate_ibuf.mp hl).2, hn, rfl⟩)
  · cases h
  · cases h
  · cases h

/-! ### Steps -/

@[simp] theorem busOffset_busAddr (p : Params) (off : Word) : busOffset p (busAddr p off) = off := by
  simp [busOffset, busAddr]

/-- A step runs the first move on the state without it. -/
theorem step_cons {m : Move} {rest : List Move} (h : s.host.moves = m :: rest) :
    step s = runMove m (s.setMoves rest) := by
  unfold step
  rw [h]

/-- A run goes on from the state a step answers. -/
theorem run_succ {k : Nat} (h : step s = .next t) : Host.Core.run core (k + 1) s = Host.Core.run core k t := by
  have hc : core.step s = .next t := h
  simp only [Host.Core.run, hc]

/-! ### The canonical form is kept -/

/-- R77: an IBUF byte write inside the buffer. -/
theorem canonical_writeIbuf {i : Nat} (b : Byte) (h : Canonical s) (hi : i < s.params.size) :
    Canonical (s.writeIbuf i b) := ⟨h.1, memory_wf_write b h.2.1 hi, h.2.2.1, h.2.2.2⟩

/-- R51: a command's result in OBUF. -/
theorem canonical_putObuf {bytes : List Byte} (c : Half) (h : Canonical s) (hb : bytes.length ≤ obufSize) :
    Canonical (s.putObuf bytes c) := ⟨h.1, h.2.1, memory_wf_ofList bytes hb, h.2.2.2⟩

/-- R52: a decode's result in VALUES. -/
theorem canonical_putValues {vs : List Value} (h : Canonical s) (hv : vs.length ≤ s.params.vcap) :
    Canonical (s.putValues vs) := ⟨h.1, h.2.1, h.2.2.1, memory_wf_ofList vs hv⟩

/-- R77: a register write. -/
theorem canonical_writeReg (r : Reg) (v : Word) (h : Canonical s) : Canonical (s.writeReg r v) := by
  cases r <;> exact h

/-- R310: the reset input. -/
theorem canonical_hwReset (h : s.params.wf = true) : Canonical s.hwReset := ⟨h, rfl, rfl, rfl⟩

/-- R61: memory right after reset is in canonical form. -/
theorem canonical_reset : Canonical State.reset := ⟨by decide, rfl, rfl, rfl⟩

end Sys2Proof.Laws
end

