-- ==== Sys2Proof/Laws/PerInstr.lean ====
section
/-! SUPPORT. Facts about every instruction, one lemma per constructor. -/

/-- R102, R105: the fields of an instruction's command word are those of an accepted word, none of RSVD set. -/
def Sys2Proof.Laws.FieldsWellFormed.Statement (i : Sys2Proof.Instr) : Prop :=
  (Sys2Proof.instrFields i).wellFormed = true ∧ (Sys2Proof.encode i).extractLsb' 9 23 = 0

namespace Sys2Proof.Laws.FieldsWellFormed

theorem crc16 : Statement .crc16 := ⟨by decide, by decide⟩
theorem buildReq : Statement .buildReq := ⟨by decide, by decide⟩
theorem validate : Statement .validate := ⟨by decide, by decide⟩
theorem decodeBits : Statement .decodeBits := ⟨by decide, by decide⟩
theorem decodeIntU16 : Statement .decodeIntU16 := ⟨by decide, by decide⟩
theorem decodeIntS16 : Statement .decodeIntS16 := ⟨by decide, by decide⟩
theorem decodeIntU32 : Statement .decodeIntU32 := ⟨by decide, by decide⟩
theorem decodeIntS32 : Statement .decodeIntS32 := ⟨by decide, by decide⟩
theorem decodeIntU64 : Statement .decodeIntU64 := ⟨by decide, by decide⟩
theorem decodeIntS64 : Statement .decodeIntS64 := ⟨by decide, by decide⟩
theorem decodeFloatF32 : Statement .decodeFloatF32 := ⟨by decide, by decide⟩
theorem decodeFloatF64 : Statement .decodeFloatF64 := ⟨by decide, by decide⟩
theorem planCoils : Statement .planCoils := ⟨by decide, by decide⟩
theorem planDiscrete : Statement .planDiscrete := ⟨by decide, by decide⟩
theorem planInt16 : Statement .planInt16 := ⟨by decide, by decide⟩
theorem planInt32 : Statement .planInt32 := ⟨by decide, by decide⟩
theorem planInt64 : Statement .planInt64 := ⟨by decide, by decide⟩
theorem planFloat32 : Statement .planFloat32 := ⟨by decide, by decide⟩
theorem planFloat64 : Statement .planFloat64 := ⟨by decide, by decide⟩

end Sys2Proof.Laws.FieldsWellFormed
end

