-- ==== Sys2Proof/Tests/Slice0.lean ====
section
/-! SUPPORT. Tests. Expected results are those of 95_test_vectors (section 2 unless another is named), 30_encoding R105
and the rules cited. The theorems test_witness_<Obligation>_… show that the premises of a statement can be met, one per
clause, at the ends of its ranges. -/

namespace Sys2Proof.Tests

open Machine

section

/- The theorems are checked one after another: each kernel evaluation waits for the one before it, and a thread for each
of them would exhaust the checker's memory. -/
set_option Elab.async false

/-! ### Helpers -/

/-- The next state, none for a fault or a refusal. -/
def after (o : Host.Outcome State Fault Refusal) : Option State :=
  match o with
  | .next t => some t
  | _ => none

/-- The fault, none otherwise. -/
def faultOf (o : Host.Outcome State Fault Refusal) : Option Fault :=
  match o with
  | .fault f => some f
  | _ => none

/-- The decoder rejects the word for the given reason. -/
def rejects (w : Word) (r : Reject) : Bool :=
  match decode w with
  | .error r' => r == r'
  | .ok _ => false

/-- A field of the next state. -/
def seen {α : Type} (o : Host.Outcome State Fault Refusal) (f : State → α) : Option α := (after o).map f

/-- The fault of a host read. -/
def readFault (r : Except Fault Word) : Option Fault :=
  match r with
  | .error f => some f
  | .ok _ => none

/-- The data of a host read. -/
def readData (r : Except Fault Word) : Option Word :=
  match r with
  | .error _ => none
  | .ok v => some v

/-- The engine after reset with 256 bytes of IBUF and a bit mode. -/
def engine (m : BitMode) : State := State.resetFor { Params.reference with bitMode := m }

/-- IBUF holds the bytes from index 0 and IBUF_LEN covers them. -/
def loaded (bytes : List Byte) : State :=
  { State.reset with ibuf := Memory.ofList bytes, ibufLen := BitVec.ofNat 16 bytes.length }

/-- IBUF of the least permitted size, 8 bytes (R9), all of them loaded. -/
def full (bytes : List Byte) : State :=
  { State.resetFor ⟨8, .asObserved, 0⟩ with ibuf := Memory.ofList bytes, ibufLen := 8 }

/-- A window of the bytes at index 3, and COUNT. -/
def windowed (m : BitMode) (bytes : List Byte) (count : Word) : State :=
  { engine m with
    ibuf := Memory.ofListFrom 3 bytes, ibufLen := BitVec.ofNat 16 (3 + bytes.length), poff := 3
    plen := BitVec.ofNat 16 bytes.length, count := count }

/-- BUILD_REQ operands. -/
def request (dev : Word) (fn : Byte) (start qty : Word) : State :=
  { State.reset with devAddr := dev, func := fn, start := start, qty := qty }

/-- COUNT. -/
def counted (c : Word) : State := { State.reset with count := c }

/-- Host moves still to come. -/
def moving (ms : List Move) : State := State.reset.setMoves ms

/-- IBUF_LEN without any byte written. -/
def lengthOnly (n : Half) : State := { State.reset with ibufLen := n }

/-! ### Well-formedness: an ill-formed term for each check -/

theorem test_wf_rsvd : Fields.rsvdClear ⟨1, 0, 0, 0, 1⟩ = false ∧ Fields.wellFormed ⟨1, 0, 0, 0, 1⟩ = false := by decide +kernel

theorem test_wf_opc :
    Fields.opcAssigned ⟨0, 0, 0, 0, 0⟩ = false ∧ Fields.opcAssigned ⟨8, 0, 0, 0, 0⟩ = false ∧
    Fields.opcAssigned ⟨15, 0, 0, 0, 0⟩ = false ∧ Fields.wellFormed ⟨8, 0, 0, 0, 0⟩ = false := by decide +kernel

theorem test_wf_unused :
    Fields.unusedClear ⟨1, 1, 0, 0, 0⟩ = false ∧ Fields.unusedClear ⟨4, 0, 1, 0, 0⟩ = false ∧
    Fields.unusedClear ⟨5, 0, 0, 1, 0⟩ = false ∧ Fields.unusedClear ⟨6, 1, 1, 0, 0⟩ = false ∧
    Fields.unusedClear ⟨6, 1, 0, 1, 0⟩ = false ∧ Fields.unusedClear ⟨7, 0, 1, 2, 0⟩ = false ∧
    Fields.unusedClear ⟨7, 1, 0, 0, 0⟩ = false ∧ Fields.wellFormed ⟨7, 1, 0, 0, 0⟩ = false := by decide +kernel

theorem test_wf_selector :
    Fields.selectorKnown ⟨5, 3, 0, 0, 0⟩ = false ∧ Fields.selectorKnown ⟨6, 0, 0, 0, 0⟩ = false ∧
    Fields.selectorKnown ⟨6, 3, 0, 0, 0⟩ = false ∧ Fields.selectorKnown ⟨7, 3, 0, 2, 0⟩ = false ∧
    Fields.selectorKnown ⟨7, 0, 0, 3, 0⟩ = false ∧ Fields.selectorKnown ⟨7, 3, 0, 3, 0⟩ = false ∧
    Fields.wellFormed ⟨5, 3, 0, 0, 0⟩ = false := by decide +kernel

/-- Invalid parameters (R9): an IBUF of fewer than 8 bytes. -/
theorem test_wf_params : Params.wf ⟨7, .asObserved, 0⟩ = false ∧ Params.wf ⟨8, .padded, 4⟩ = true := by decide +kernel

/-! ### Decoding: each word written out from the fields of R100 and R105 (RSVD, KIND, SGN, WSEL, OPC) -/

theorem test_decode_crc16 : decode 0b00000000000000000000000_00_0_00_0001 = .ok .crc16 := by decide +kernel
theorem test_decode_buildReq : decode 0b00000000000000000000000_00_0_00_0010 = .ok .buildReq := by decide +kernel
theorem test_decode_validate : decode 0b00000000000000000000000_00_0_00_0011 = .ok .validate := by decide +kernel
theorem test_decode_decodeBits : decode 0b00000000000000000000000_00_0_00_0100 = .ok .decodeBits := by decide +kernel
theorem test_decode_decodeIntU16 : decode 0b00000000000000000000000_00_0_00_0101 = .ok .decodeIntU16 := by decide +kernel
theorem test_decode_decodeIntS16 : decode 0b00000000000000000000000_00_1_00_0101 = .ok .decodeIntS16 := by decide +kernel
theorem test_decode_decodeIntU32 : decode 0b00000000000000000000000_00_0_01_0101 = .ok .decodeIntU32 := by decide +kernel
theorem test_decode_decodeIntS32 : decode 0b00000000000000000000000_00_1_01_0101 = .ok .decodeIntS32 := by decide +kernel
theorem test_decode_decodeIntU64 : decode 0b00000000000000000000000_00_0_10_0101 = .ok .decodeIntU64 := by decide +kernel
theorem test_decode_decodeIntS64 : decode 0b00000000000000000000000_00_1_10_0101 = .ok .decodeIntS64 := by decide +kernel
theorem test_decode_decodeFloatF32 : decode 0b00000000000000000000000_00_0_01_0110 = .ok .decodeFloatF32 := by decide +kernel
theorem test_decode_decodeFloatF64 : decode 0b00000000000000000000000_00_0_10_0110 = .ok .decodeFloatF64 := by decide +kernel
theorem test_decode_planCoils : decode 0b00000000000000000000000_00_0_00_0111 = .ok .planCoils := by decide +kernel
theorem test_decode_planDiscrete : decode 0b00000000000000000000000_01_0_00_0111 = .ok .planDiscrete := by decide +kernel
theorem test_decode_planInt16 : decode 0b00000000000000000000000_10_0_00_0111 = .ok .planInt16 := by decide +kernel
theorem test_decode_planInt32 : decode 0b00000000000000000000000_10_0_01_0111 = .ok .planInt32 := by decide +kernel
theorem test_decode_planInt64 : decode 0b00000000000000000000000_10_0_10_0111 = .ok .planInt64 := by decide +kernel
theorem test_decode_planFloat32 : decode 0b00000000000000000000000_11_0_01_0111 = .ok .planFloat32 := by decide +kernel
theorem test_decode_planFloat64 : decode 0b00000000000000000000000_11_0_10_0111 = .ok .planFloat64 := by decide +kernel

/-- Section 2.8: the words that raise IllegalCommand. -/
theorem test_decode_illegal :
    ([0x00000000, 0x00000008, 0x0000000F, 0x00000201, 0x80000005, 0x00000011, 0x00000041, 0x00000081, 0x000001C7
      , 0x00000014, 0x00000044, 0x00000085, 0x000000B5, 0x00000056, 0x00000017, 0x00000147] : List Word).all
      (rejects · .illegalCommand) = true := by decide

/-- Section 2.8: the words that raise InvalidFormat. -/
theorem test_decode_invalidFormat :
    ([0x00000035, 0x00000075, 0x00000006, 0x00000036, 0x00000137, 0x00000187, 0x000001B7] : List Word).all
      (rejects · .invalidFormat) = true := by decide

/-- A rejected word runs as a next state: its status, CMD the new word (section 2.8). -/
theorem test_rejected_word_status :
    seen (memWrite State.reset 0x000 4 0x000001C7) (fun t => (t.status, t.cmd)) = some (.illegalCommand, 0x1C7) ∧
    seen (memWrite State.reset 0x000 4 0x00000137) (fun t => (t.status, t.cmd)) = some (.invalidFormat, 0x137) := by
  decide +kernel

theorem test_decodeTableWord :
    decodeTableWord 32 0x1A7 = some .planFloat64 ∧ decodeTableWord 32 0x137 = none ∧ decodeTableWord 32 0 = none := by
  decide +kernel

/-- The first step from reset runs the placed command. -/
theorem test_fetchWord_runs :
    seen (step (State.reset.withFetchWord 32 0x107)) (fun t => (t.cmd, t.func, t.qty, t.explen)) =
      some (0x107, 3, 0, 5) ∧
    seen (step (State.reset.withFetchWord 32 0x107)) (fun t => (t.status, t.host.moves)) = some (.ok, []) := by decide +kernel

/-! ### CRC16 (2.1) -/

theorem test_crc16_example :
    seen (exec .crc16 (loaded [0x01, 0x03, 0x00, 0x00, 0x00, 0x0A]))
      (fun t => (t.status, t.crc, t.obuf, t.obufLen)) = some (.ok, 0xCDC5, [(0, 0xC5), (1, 0xCD)], 2) := by
  decide +kernel

theorem test_crc16_residue :
    seen (exec .crc16 (loaded [0x01, 0x03, 0x02, 0x12, 0x34, 0xB5, 0x33])) (fun t => (t.crc, t.obuf)) =
      some (0, [(0, 0), (1, 0)]) := by decide +kernel

theorem test_crc_values :
    crc16 [0x00] = 0x40BF ∧ crc16 [0x01] = 0x807E ∧ crc16 [0xFF] = 0x00FF ∧ crc16 [0xFF, 0xFF] = 0 ∧
    crc16 [0x01, 0x03] = 0x2140 ∧ crc16 [0x01, 0x03, 0x00] = 0xF020 ∧
    crc16 [0x01, 0x03, 0x02, 0x12, 0x34] = 0x33B5 ∧
    crc16 [0x31, 0x32, 0x33, 0x34, 0x35, 0x36, 0x37, 0x38, 0x39] = 0x4B37 := by decide +kernel

/-! ### BUILD_REQ (2.2) -/

theorem test_buildReq_fields :
    seen (exec .buildReq (request 0x11 0x03 0x6B 0x03)) (fun t => (t.status, t.crc, t.obufLen, t.obuf.map Prod.snd)) =
      some (.ok, 0x8776, 8, [0x11, 0x03, 0x00, 0x6B, 0x00, 0x03, 0x76, 0x87]) := by decide +kernel

theorem test_buildReq_order :
    seen (exec .buildReq (request 0x100 0x03 0x10000 1)) (fun t => t.status) = some .invalidAddress ∧
    seen (exec .buildReq (request 1 0x03 0 0x10000)) (fun t => (t.status, t.obufLen)) = some (.fieldRange, 0) := by
  decide +kernel

/-! ### VALIDATE (2.3) -/

theorem test_validate_ok :
    seen (exec .validate { loaded [0x01, 0x03, 0xFF, 0x12, 0x34, 0x24, 0xC3] with func := 0x03 })
      (fun t => (t.status, t.poff, t.plen)) = some (.ok, 3, 2) := by decide +kernel

theorem test_validate_rejects :
    seen (exec .validate { loaded [0x01, 0x04, 0x02, 0x12, 0x34, 0xB5, 0x33] with func := 0x03 }) (fun t => t.status)
      = some .crcMismatch ∧
    seen (exec .validate { loaded [0x01, 0x83, 0x02, 0xC0, 0xF1] with func := 0x03 }) (fun t => (t.status, t.plen))
      = some (.unexpectedFunction, 0) ∧
    faultOf (exec .validate (lengthOnly 1)) = some (.unwritten (.ibuf 0)) := by decide +kernel

/-! ### DECODE_BITS (2.4) -/

theorem test_decodeBits_asObserved :
    seen (exec .decodeBits (windowed .asObserved [0x01, 0x80] 10)) (fun t => (t.vcount, t.values.map Prod.snd)) =
      some (9, [1, 1, 0, 0, 0, 0, 0, 0, 0]) := by decide +kernel

theorem test_decodeBits_padded :
    seen (exec .decodeBits (windowed .padded [0x01, 0x80] 10)) (fun t => (t.vcount, t.values.map Prod.snd)) =
      some (10, [0, 0, 0, 0, 0, 0, 0, 1, 1, 0]) ∧
    seen (exec .decodeBits (windowed .padded [0x05] 3)) (fun t => (t.vcount, t.values.map Prod.snd)) =
      some (3, [0, 0, 0]) := by decide +kernel

/-! ### DECODE_INT (2.5) -/

theorem test_decodeIntU16 :
    seen (exec .decodeIntU16 (windowed .asObserved [0xFF, 0xFF, 0x00, 0x01] 2)) (fun t => (t.vcount, t.values)) =
      some (2, [(0, 0xFFFF), (1, 1)]) := by decide +kernel

theorem test_decodeIntS16 :
    seen (exec .decodeIntS16 (windowed .padded [0x80, 0x00, 0x7F, 0xFF, 0xFF, 0xFF] 3)) (fun t => t.values) =
      some [(0, 0xFFFFFFFFFFFF8000), (1, 0x7FFF), (2, 0xFFFFFFFFFFFFFFFF)] := by decide +kernel

theorem test_decodeIntU32 :
    seen (exec .decodeIntU32 (windowed .asObserved [0x80, 0x00, 0x00, 0x00] 1)) (fun t => t.values) =
      some [(0, 0x80000000)] := by decide +kernel

theorem test_decodeIntS32 :
    seen (exec .decodeIntS32
      (windowed .asObserved [0x80, 0x00, 0x00, 0x00, 0x7F, 0xFF, 0xFF, 0xFF, 0x00, 0x00, 0x00, 0x00] 3))
      (fun t => t.values) = some [(0, 0xFFFFFFFF80000000), (1, 0x7FFFFFFF), (2, 0)] := by decide +kernel

theorem test_decodeIntU64 :
    seen (exec .decodeIntU64 (windowed .asObserved [0x00, 0x00, 0x00, 0x01, 0x00, 0x00, 0x00, 0x00] 1))
      (fun t => t.values) = some [(0, 0x100000000)] := by decide +kernel

theorem test_decodeIntS64 :
    seen (exec .decodeIntS64 (windowed .asObserved [0x80, 0x00, 0x00, 0x00, 0x00, 0x00, 0x00, 0x00] 1))
      (fun t => t.values) = some [(0, 0x8000000000000000)] := by decide +kernel

theorem test_decodeInt_rejects :
    seen (exec .decodeIntU32 (windowed .asObserved [0x00, 0x00, 0x00, 0x01] 2)) (fun t => t.status) =
      some .payloadLength ∧
    seen (exec .decodeIntU16 { loaded [0, 0, 0, 0] with poff := 3, plen := 2, count := 1 }) (fun t => t.status) =
      some .bufferBounds := by decide +kernel

/-! ### DECODE_FLOAT (2.6) -/

theorem test_decodeFloatF32 :
    seen (exec .decodeFloatF32 (windowed .asObserved [0xBF, 0xC0, 0x00, 0x00] 1)) (fun t => t.values) =
      some [(0, 0xBFC00000)] := by decide +kernel

theorem test_decodeFloatF64 :
    seen (exec .decodeFloatF64 (windowed .asObserved [0x40, 0x09, 0x21, 0xF9, 0xF0, 0x1B, 0x86, 0x6E] 1))
      (fun t => t.values) = some [(0, 0x400921F9F01B866E)] := by decide +kernel

/-! ### PLAN (2.7) -/

/-- FUNC, QTY and EXPLEN after a PLAN. -/
def planned (i : Instr) (c : Word) : Option (Status × Byte × Word × Word) :=
  seen (exec i (counted c)) (fun t => (t.status, t.func, t.qty, t.explen))

theorem test_planCoils : planned .planCoils 10 = some (.ok, 1, 10, 25) := by decide +kernel
theorem test_planDiscrete : planned .planDiscrete 3 = some (.ok, 2, 3, 11) := by decide +kernel
theorem test_planInt16 : planned .planInt16 5 = some (.ok, 3, 5, 15) := by decide +kernel
theorem test_planInt32 : planned .planInt32 32767 = some (.ok, 3, 65534, 131073) := by decide +kernel
theorem test_planInt64 : planned .planInt64 3 = some (.ok, 3, 12, 29) := by decide +kernel
theorem test_planFloat32 : planned .planFloat32 2 = some (.ok, 3, 4, 13) := by decide +kernel
theorem test_planFloat64 : planned .planFloat64 16383 = some (.ok, 3, 65532, 131069) := by decide +kernel

theorem test_plan_fieldRange :
    planned .planCoils 65536 = some (.fieldRange, 0, 0, 0) ∧ planned .planInt32 32768 = some (.fieldRange, 0, 0, 0) ∧
    planned .planInt64 16384 = some (.fieldRange, 0, 0, 0) ∧
    planned .planInt64 0x40000000 = some (.fieldRange, 0, 0, 0) := by decide +kernel

/-! ### Host accesses (2.9) -/

theorem test_access_reads :
    readData (memRead State.reset 0x004 4) = some 0x0000000F ∧
    readData (memRead (engine .asObserved) 0x038 4) = some 0x00000100 ∧
    readData (memRead (engine .padded) 0x038 4) = some 0x00010100 := by decide +kernel

theorem test_access_keep :
    seen (memWrite State.reset 0x008 4 0x12345603) (fun t => readData (memRead t 0x008 4)) = some (some 0x03) ∧
    seen (memWrite State.reset 0x01C 4 0xFFFF0009) (fun t => readData (memRead t 0x01C 4)) = some (some 0x09) := by
  decide +kernel

theorem test_access_busError :
    faultOf (memWrite State.reset 0x004 4 0) = some (.busError 0x004) ∧
    readFault (memRead State.reset 0x03C 4) = some (.busError 0x03C) ∧
    readFault (memRead State.reset 0x002 4) = some (.busError 0x002) ∧
    readFault (memRead State.reset 0x004 2) = some (.busError 0x004) ∧
    faultOf (memWrite State.reset 0x00020000 1 0) = some (.busError 0x00020000) ∧
    readFault (memRead State.reset 0x00010100 1) = some (.busError 0x00010100) := by decide +kernel

theorem test_access_unwritten :
    readFault (memRead State.reset 0x00010000 1) = some (.unwritten (.ibuf 0)) ∧
    seen (exec .crc16 (loaded [0x00])) (fun t => readFault (memRead t 0x00020002 1)) =
      some (some (.unwritten (.obuf 2))) ∧
    seen (exec .decodeIntS16 (windowed .asObserved [0xFF, 0xFE] 1))
      (fun t => (readData (memRead t 0x01000000 4), readData (memRead t 0x01000004 4),
        readFault (memRead t 0x01000008 4))) =
      some (some 0xFFFFFFFE, some 0xFFFFFFFF, some (.unwritten (.values 1))) := by decide +kernel

/-! ### The host's side (section 3) -/

/-- P1: the frame of the request is what XMIT hands over; whether the write times out is free. -/
theorem test_xmit_frame :
    step ({ moving [.xmit] with obufLen := 2, obuf := [(0, 0x45), (1, 0xCC)] }) =
      .next (afterWrite [0x45, 0xCC] (Config.txTimesOut 0)
        { State.reset with obufLen := 2, obuf := [(0, 0x45), (1, 0xCC)] }) := by rfl

/-- P4: an unrecognised width ends the operation with InvalidFormat before any transport call. -/
theorem test_program_p4 :
    seen (Host.Core.run core 4 (moving [.readOp (.ints 1 0 2 none true)]))
      (fun t => (t.cmd, t.status, t.count)) = some (0x137, .invalidFormat, 2) ∧
    seen (Host.Core.run core 4 (moving [.readOp (.ints 1 0 2 none true)]))
      (fun t => (t.host.outcome, t.host.writeCalls, t.host.moves)) = some (.failed 2, 0, []) := by decide +kernel

/-- P5: device address 256 ends the operation with InvalidAddress before any transport call. -/
theorem test_program_p5 :
    seen (Host.Core.run core 8 (moving [.readOp (.ints 256 0 2 (some .w32) true)]))
      (fun t => (t.cmd, t.status, t.func, t.qty)) = some (2, .invalidAddress, 3, 4) ∧
    seen (Host.Core.run core 8 (moving [.readOp (.ints 256 0 2 (some .w32) true)]))
      (fun t => (t.host.outcome, t.host.writeCalls, t.host.readCalls)) = some (.failed 1, 0, 0) := by decide +kernel

/-- LOADRESP of two bytes (30_encoding R111). -/
theorem test_loadResp :
    seen (Host.Core.run core 4 (moving [.loadResp [0xAB, 0xCD]])) (fun t => (t.ibuf, t.ibufLen, t.host.moves)) =
      some ([(0, 0xAB), (1, 0xCD)], 2, []) := by decide +kernel

/-- R262: a count beyond 32 bits is not run. -/
theorem test_readOp_noThirtyTwoBitForm :
    (match step (moving [.readOp (.coils 1 0 4294967296)]) with
      | .refused r => some r
      | _ => none) = some Refusal.noThirtyTwoBitForm := by decide +kernel

/-! ### Witnesses: the premises of the statements can be met -/

theorem test_witness_AcceptedWordsExactly :
    (∀ row ∈ acceptedRows, row.1 ≠ (0 : Word)) ∧ (∀ row ∈ acceptedRows, row.1 ≠ (0x137 : Word)) ∧
    (∀ row ∈ acceptedRows, row.1 ≠ (0xFFFFFFFF : Word)) := by decide +kernel

theorem test_witness_StepRunsDecodedCommand :
    (moving [.busWrite (busAddr State.reset.params 0) 4 0x1A7]).host.moves =
      [.busWrite (busAddr (moving [.busWrite (busAddr State.reset.params 0) 4 0x1A7]).params 0) 4 0x1A7] ∧
    decode 0x1A7 = .ok .planFloat64 ∧ 2 ^ 32 - 1 < 2 ^ 32 := by decide +kernel

theorem test_witness_CmdWriteExecutes :
    (after (memWrite State.reset 0x000 4 0x107)).isSome = true ∧
    (moving [.busRead (busAddr State.reset.params 0) 4]).host.moves = [.busRead (busAddr State.reset.params 0) 4] ∧
    (after (memWrite State.reset 0x008 4 1)).isSome = true ∧ (0x008 : Word) ≠ 0 ∧
    (after (memWrite State.reset 0x100FF 1 1)).isSome = true := by decide +kernel

/-- Some next state of every command, from one state that meets all its premises (also for the frames). -/
theorem test_witness_StatusesPerCommand :
    (after (exec .crc16 (loaded []))).isSome = true ∧ (after (exec .buildReq (request 0 0 0 0))).isSome = true ∧
    (after (exec .validate (lengthOnly 0))).isSome = true ∧
    (∀ i ∈ decodeCommands, (after (exec i (windowed .asObserved [] 0))).isSome = true) ∧
    (∀ i ∈ planCommands, (after (exec i (counted 0))).isSome = true) ∧
    (after (execute 0x137 State.reset)).isSome = true := by decide +kernel

theorem test_witness_FailureWritesStatusOnly :
    seen (execute 0x007 (counted 65536)) (fun t => t.status) = some .fieldRange ∧ Status.fieldRange ≠ .ok ∧
    seen (memWrite (lengthOnly 257) 0x000 4 0x001) (fun t => t.status) = some .bufferBounds := by decide +kernel

theorem test_witness_CommandsFaultOnlyUnwritten :
    faultOf (exec .crc16 (lengthOnly 3)) = some (.unwritten (.ibuf 0)) ∧
    faultOf (exec .crc16 (full [0, 1, 2, 3, 4, 5, 6])) = some (.unwritten (.ibuf 7)) := by
  decide +kernel

theorem test_witness_FrameCrc16BuildReq :
    Instr.crc16 ∈ [Instr.crc16, .buildReq] ∧ Instr.buildReq ∈ [Instr.crc16, .buildReq] ∧
    seen (exec .crc16 (loaded [0x00])) (fun t => t.status) = some .ok ∧
    (0x00020008 : Word) ∉ ([0x004, 0x028, 0x02C] : List Word) ∧
    ¬ (0x00020000 ≤ (0x00020008 : Word).toNat ∧ (0x00020008 : Word).toNat < 0x00020008) := by decide +kernel

theorem test_witness_FrameValidate :
    seen (exec .validate { loaded [0xFF, 0xFF] with func := 0xFF }) (fun t => t.status) = some .ok ∧
    (0x01C : Word) ∉ ([0x004, 0x020, 0x024] : List Word) := by decide +kernel

theorem test_witness_FrameDecode :
    Instr.decodeBits ∈ decodeCommands ∧ Instr.decodeFloatF64 ∈ decodeCommands ∧
    seen (exec .decodeBits (windowed .padded [] 0)) (fun t => t.status) = some .ok ∧
    (0x030 : Word) ∉ ([0x004, 0x034] : List Word) ∧
    0x01000000 + 8 * State.reset.params.vcap ≤ (0x01004000 : Word).toNat ∧ (0x00FFFFFF : Word).toNat < 0x01000000 := by
  decide +kernel

theorem test_witness_FramePlan :
    Instr.planCoils ∈ planCommands ∧ Instr.planFloat64 ∈ planCommands ∧
    seen (exec .planFloat64 (counted 16383)) (fun t => t.status) = some .ok ∧
    (0x018 : Word) ∉ ([0x004, 0x008, 0x014, 0x030] : List Word) := by decide +kernel

theorem test_witness_CrcDetectsSingleBitFlip :
    0 < 8 * (([] : List Byte).length + 2) ∧ 15 < 8 * (([] : List Byte).length + 2) ∧
    55 < 8 * (([0x01, 0x03, 0x02, 0x12, 0x34] : List Byte).length + 2) := by decide +kernel

theorem test_witness_Crc16Command :
    (lengthOnly 257).params.size < (lengthOnly 257).ibufLen.toNat ∧
    LengthInBounds (lengthOnly 1) ∧ FirstUnwritten (lengthOnly 1).ibuf 0 (lengthOnly 1).ibufLen.toNat 0 ∧
    InputHolds (loaded []) [] ∧ InputHolds (full [0, 1, 2, 3, 4, 5, 6, 7]) [0, 1, 2, 3, 4, 5, 6, 7] := by
  decide +kernel

/-- Words with the OPC of an operand-free command that are not its word. -/
theorem test_witness_opc_other_word :
    ((fieldsOf 0x00000011).opc = 1 ∧ (0x00000011 : Word) ≠ 0x00000001) ∧
    ((fieldsOf 0x80000002).opc = 2 ∧ (0x80000002 : Word) ≠ 0x00000002) ∧
    ((fieldsOf 0x00000043).opc = 3 ∧ (0x00000043 : Word) ≠ 0x00000003) ∧
    ((fieldsOf 0x00000184).opc = 4 ∧ (0x00000184 : Word) ≠ 0x00000004) := by decide

theorem test_witness_BuildReqCommand :
    (request 0xFFFFFFFF 3 0 1).devAddr.toInt < 0 ∧ 255 < (request 0x100 3 0 1).devAddr.toInt ∧
    (request 0x80000000 3 0 1).devAddr.toInt < 0 ∧
    (0 ≤ (request 255 3 0x10000 1).devAddr.toInt ∧ (request 255 3 0x10000 1).devAddr.toInt ≤ 255 ∧
      0xFFFF < (request 255 3 0x10000 1).start.toNat) ∧
    (0 ≤ (request 0 3 0 0x10000).devAddr.toInt ∧ (request 0 3 0 0x10000).devAddr.toInt ≤ 255 ∧
      0xFFFF < (request 0 3 0 0x10000).qty.toNat) ∧
    (0 ≤ (request 255 3 0xFFFF 0xFFFF).devAddr.toInt ∧ (request 255 3 0xFFFF 0xFFFF).devAddr.toInt ≤ 255 ∧
      (request 255 3 0xFFFF 0xFFFF).start.toNat ≤ 0xFFFF ∧ (request 255 3 0xFFFF 0xFFFF).qty.toNat ≤ 0xFFFF) := by
  decide +kernel

theorem test_witness_BuildReqFieldsRoundTrip :
    seen (exec .buildReq (request 255 0x01 0 0)) (fun t => t.status) = some .ok ∧
    seen (exec .buildReq (request 0 0x02 0xFFFF 0xFFFF)) (fun t => (t.status, t.crc)) = some (.ok, 0x4F78) := by
  decide +kernel

theorem test_witness_ValidateCommand :
    (lengthOnly 257).params.size < (lengthOnly 257).ibufLen.toNat ∧ (lengthOnly 0).ibufLen = 0 ∧
    (LengthInBounds (lengthOnly 1) ∧ FirstUnwritten (lengthOnly 1).ibuf 0 (lengthOnly 1).ibufLen.toNat 0) ∧
    (InputHolds (loaded [0x01]) [0x01] ∧ ([0x01] : List Byte).length = 1) ∧
    (InputHolds (loaded [0xFF, 0xFE]) [0xFF, 0xFE] ∧ crcBytes [] ≠ [0xFF, 0xFE]) := by decide +kernel

/-- n = 2, the least the function check and the success need: crcbytes(empty) = FF FF (2.3). -/
theorem test_witness_ValidateCommand_agree :
    InputHolds (loaded [0xFF, 0xFF]) [0xFF, 0xFF] ∧ crcBytes ([0xFF, 0xFF].take (2 - 2)) = [0xFF, 0xFF].drop (2 - 2) ∧
    [(0xFF : Byte), 0xFF][1]? ≠ some (loaded [0xFF, 0xFF]).func ∧
    InputHolds { loaded [0xFF, 0xFF] with func := 0xFF } [0xFF, 0xFF] ∧
    [(0xFF : Byte), 0xFF][1]? = some ({ loaded [0xFF, 0xFF] with func := 0xFF } : State).func := by decide +kernel

theorem test_witness_ValidateRoundTrip :
    InputHolds { loaded [0x01, 0x03, 0x02, 0x12, 0x34, 0xB5, 0x33] with func := 3 }
      ([0x01, 0x03, 0x02] ++ [0x12, 0x34] ++ crcBytes ([0x01, 0x03, 0x02] ++ [0x12, 0x34])) ∧
    InputHolds { loaded [0x01, 0x03, 0x00, 0x20, 0xF0] with func := 3 }
      ([0x01, 0x03, 0x00] ++ [] ++ crcBytes ([0x01, 0x03, 0x00] ++ [])) := by decide +kernel

/-- E4 of section 1: bit 0 of byte 6, and bit 7 of the last byte, of the 56. -/
theorem test_witness_ValidateDetectsTamper :
    InputHolds (loaded [0x01, 0x03, 0x02, 0x12, 0x34, 0xB5, 0x32])
      (flipBit ([0x01, 0x03, 0x02] ++ [0x12, 0x34] ++ crcBytes ([0x01, 0x03, 0x02] ++ [0x12, 0x34])) 48) ∧
    InputHolds (loaded [0x01, 0x03, 0x02, 0x12, 0x34, 0xB5, 0xB3])
      (flipBit ([0x01, 0x03, 0x02] ++ [0x12, 0x34] ++ crcBytes ([0x01, 0x03, 0x02] ++ [0x12, 0x34])) 55) ∧
    InputHolds (loaded [0x00, 0x03, 0x02, 0x12, 0x34, 0xB5, 0x33])
      (flipBit ([0x01, 0x03, 0x02] ++ [0x12, 0x34] ++ crcBytes ([0x01, 0x03, 0x02] ++ [0x12, 0x34])) 0) ∧
    55 < 8 * (([0x12, 0x34] : List Byte).length + 5) := by decide +kernel

theorem test_witness_DecodeIntUnsigned :
    (Instr.decodeIntU64, 8) ∈ [(Instr.decodeIntU16, 2), (.decodeIntU32, 4), (.decodeIntU64, 8)] ∧
    (Instr.decodeIntU16, 2) ∈ [(Instr.decodeIntU16, 2), (.decodeIntU32, 4), (.decodeIntU64, 8)] ∧
    WindowHolds (windowed .asObserved [] 0) [] ∧ (windowed .asObserved [] 0).plen.toNat = 0 * 8 ∧
    WindowHolds (windowed .padded (List.replicate 8 0xFF) 1) (List.replicate 8 0xFF) ∧
    (windowed .padded (List.replicate 8 0xFF) 1).plen.toNat = 1 * 8 := by decide +kernel

theorem test_witness_DecodeIntSigned :
    (Instr.decodeIntS16, 2) ∈ [(Instr.decodeIntS16, 2), (.decodeIntS32, 4), (.decodeIntS64, 8)] ∧
    (Instr.decodeIntS64, 8) ∈ [(Instr.decodeIntS16, 2), (.decodeIntS32, 4), (.decodeIntS64, 8)] ∧
    WindowHolds (windowed .asObserved [0x80, 0x00] 1) [0x80, 0x00] ∧
    (windowed .asObserved [0x80, 0x00] 1).plen.toNat = 1 * 2 := by decide +kernel

theorem test_witness_DecodeFloatPatterns :
    (Instr.decodeFloatF32, 4) ∈ [(Instr.decodeFloatF32, 4), (.decodeFloatF64, 8)] ∧
    WindowHolds (windowed .asObserved [0x7F, 0xC0, 0x00, 0x01] 1) [0x7F, 0xC0, 0x00, 0x01] ∧
    (windowed .asObserved [0x7F, 0xC0, 0x00, 0x01] 1).plen.toNat = 1 * 4 := by decide +kernel

theorem test_witness_DecodeChunkRejects :
    (Instr.decodeIntU16, 2) ∈ chunkCommands ∧ (Instr.decodeFloatF64, 8) ∈ chunkCommands ∧
    ¬ WindowInBounds { lengthOnly 4 with poff := 3, plen := 2, count := 1 } ∧ ¬ WindowInBounds (lengthOnly 257) ∧
    (WindowInBounds (counted 1) ∧ (counted 1).plen.toNat ≠ (counted 1).count.toNat * 2) ∧
    (WindowInBounds { lengthOnly 2 with plen := 2, count := 1 } ∧
      ({ lengthOnly 2 with plen := 2, count := 1 } : State).plen.toNat = 1 * 2 ∧
      FirstUnwritten (lengthOnly 2).ibuf 0 2 0) := by decide +kernel

theorem test_witness_DecodeGivesBackWhatWasEncoded :
    WindowHolds (windowed .asObserved [0x80, 0x00, 0x00, 0x00] 1) ([0x80000000].flatMap bytesOf32) ∧
    (windowed .asObserved [0x80, 0x00, 0x00, 0x00] 1).count.toNat = [(0x80000000 : BitVec 32)].length ∧
    WindowHolds (windowed .asObserved [0xC0, 0x04, 0, 0, 0, 0, 0, 0] 1) ([0xC004000000000000].flatMap bytesOf64) ∧
    (windowed .asObserved [0xC0, 0x04, 0, 0, 0, 0, 0, 0] 1).count.toNat = [(0xC004000000000000 : BitVec 64)].length := by
  decide +kernel

/-- POFF = 300 with an empty window is in bounds (2.4). -/
theorem test_witness_DecodeBitsAsObserved :
    (windowed .asObserved [0x05] 0).params.bitMode = .asObserved ∧ WindowHolds (windowed .asObserved [0x05] 0) [0x05] ∧
    ({ State.reset with poff := 300 } : State).params.bitMode = .asObserved ∧
    WindowHolds { State.reset with poff := 300 } [] := by decide +kernel

/-- COUNT = VCAP and COUNT = 0 (2.4). -/
theorem test_witness_DecodeBitsPadded :
    (windowed .padded [] 2048).params.bitMode = .padded ∧
    (windowed .padded [] 2048).count.toNat ≤ (windowed .padded [] 2048).params.vcap ∧
    WindowHolds (windowed .padded [] 2048) [] ∧
    WindowHolds (windowed .padded [0x80] 0) [0x80] ∧
    (windowed .padded [0x80] 0).count.toNat ≤ (windowed .padded [0x80] 0).params.vcap := by decide +kernel

theorem test_witness_DecodeBitsRejects :
    ¬ WindowInBounds { lengthOnly 7 with poff := 3, plen := 5 } ∧
    (WindowInBounds (windowed .padded [] 2049) ∧ (windowed .padded [] 2049).params.bitMode = .padded ∧
      (windowed .padded [] 2049).params.vcap < (windowed .padded [] 2049).count.toNat) ∧
    (WindowInBounds { lengthOnly 2 with plen := 2 } ∧ (lengthOnly 2).params.bitMode = .asObserved ∧
      FirstUnwritten (lengthOnly 2).ibuf 0 2 0) ∧
    (WindowInBounds { engine .padded with ibufLen := 2, plen := 2, count := 2048 } ∧
      ({ engine .padded with ibufLen := 2, plen := 2, count := 2048 } : State).count.toNat ≤
        (engine .padded).params.vcap ∧ FirstUnwritten (engine .padded).ibuf 0 2 0) := by decide +kernel

theorem test_witness_PlanCommand :
    (Instr.planCoils, (1 : Byte), 1) ∈ planRows ∧ (counted 0xFFFF).count.toNat * 1 ≤ 0xFFFF ∧
    0xFFFF < (counted 0x10000).count.toNat * 1 ∧ (Instr.planInt64, (3 : Byte), 4) ∈ planRows ∧
    (counted 16383).count.toNat * 4 ≤ 0xFFFF ∧ 0xFFFF < (counted 16384).count.toNat * 4 := by decide +kernel

/-- The ends of each region, for 256 bytes of IBUF: the last accepted offset and the first past it. -/
theorem test_witness_BusErrorExactly :
    readFault (memRead State.reset 0x038 4) = none ∧
    readFault (memRead State.reset 0x000100FF 1) = some (.unwritten (.ibuf 255)) ∧
    readFault (memRead State.reset 0x00020007 1) = some (.unwritten (.obuf 7)) ∧
    readFault (memRead State.reset 0x00020008 1) = some (.busError 0x00020008) ∧
    readFault (memRead State.reset 0x01003FFC 4) = some (.unwritten (.values 2047)) ∧
    readFault (memRead State.reset 0x01004000 4) = some (.busError 0x01004000) ∧
    faultOf (memWrite State.reset 0x038 4 0) = some (.busError 0x038) := by decide +kernel

theorem test_witness_MemReadAnswers :
    255 < State.reset.params.size ∧ 7 < 8 ∧ 2047 < State.reset.params.vcap ∧
    (moving [.busRead 0x004 4]).host.moves = [.busRead 0x004 4] ∧
    seen (step (moving [.busRead 0x004 4])) (fun t => t.host.readData) = some (some 0xF) := by decide +kernel

theorem test_witness_MemWriteEffects :
    ((0x008 : Word), (0xFF : Word)) ∈ keepMasks ∧ ((0x024 : Word), (0xFFFF : Word)) ∈ keepMasks ∧
    0 < State.reset.params.size ∧ 255 < State.reset.params.size ∧
    faultOf (memWrite State.reset 0x00010100 1 0) = some (.busError 0x00010100) ∧
    faultOf (memWrite State.reset 0x000 1 0) = some (.busError 0) := by decide +kernel

theorem test_witness_ConfigConstant :
    seen (step (moving [.platformReset])) (fun t => t.params) = some Params.reference := by decide +kernel

theorem test_witness_ResetLeaves : (0 < 14 ∧ 0 ≠ 1) ∧ (13 < 14 ∧ 13 ≠ 1) := by decide +kernel

theorem test_witness_PlatformResetStep : (moving [.platformReset, .xmit]).host.moves = [.platformReset, .xmit] := by decide +kernel

theorem test_witness_SafeAtReset :
    Params.wf ⟨8, .padded, 0xFFFFFFFF⟩ = true ∧ Params.wf ⟨65535, .asObserved, 0⟩ = true := by decide +kernel

/-- A state that is safe and takes a step: reset, before a CMD write. -/
theorem test_witness_StepKeepsSafe :
    Safe (moving [.busWrite 0 4 0x107]) ∧ (after (step (moving [.busWrite 0 4 0x107]))).isSome = true := by
  refine ⟨⟨⟨by decide, rfl, rfl, rfl⟩, ⟨.inl rfl, fun i => ?_, fun h => absurd rfl h⟩, ⟨Nat.zero_le _, fun e => ?_⟩,
    .inl rfl⟩, by decide +kernel⟩
  · simp [moving, State.reset]
  · simp [moving, State.reset]

theorem test_witness_FailUnlessOkStep :
    (moving [.failUnlessOk, .xmit]).host.moves = [.failUnlessOk, .xmit] ∧
    (moving [.failUnlessOk, .xmit]).status ≠ .ok ∧
    ({ moving [.failUnlessOk, .xmit] with status := .ok } : State).status = .ok := by decide +kernel

theorem test_witness_XmitSendsRequest :
    ((moving [.xmit]).host.moves = [.xmit] ∧ ([] : List Byte).length = (moving [.xmit]).obufLen.toNat ∧
      (moving [.xmit]).obufLen.toNat ≤ 8 ∧ Holds (moving [.xmit]).obuf 0 []) ∧
    (([1, 2, 3, 4, 5, 6, 7, 8] : List Byte).length = ({ moving [.xmit] with obufLen := 8 } : State).obufLen.toNat ∧
      Holds (Memory.ofList ([1, 2, 3, 4, 5, 6, 7, 8] : List Byte)) 0 [1, 2, 3, 4, 5, 6, 7, 8]) := by decide +kernel

theorem test_witness_RecvExpectedStep : (moving [.recvExpected]).host.moves = [.recvExpected] := by decide +kernel

theorem test_witness_TransportCallsBounded :
    (after (step (moving [.readOp (.coils 1 0 1)]))).isSome = true ∧
    (after (step (moving [.recvDiscard 8]))).isSome = true := by decide +kernel

theorem test_witness_InvalidFormatBeforeIO :
    (ReadOp.ints 1 0 2 none true).runnable = true ∧
    (ReadOp.floats (-2147483648) 4294967295 4294967295 none).runnable = true := by decide +kernel

theorem test_witness_InvalidAddressBeforeIO :
    ((ReadOp.coils (-1) 0 0).runnable = true ∧ (ReadOp.coils (-1) 0 0).args.1 < 0) ∧
    ((ReadOp.ints 256 0 16383 (some .w64) true).runnable = true ∧
      255 < (ReadOp.ints 256 0 16383 (some .w64) true).args.1 ∧
      (ReadOp.ints 256 0 16383 (some .w64) true).args.2.2 ≤ 16383) := by decide +kernel

theorem test_witness_LoadRespLoadsInput :
    (moving [.loadResp []]).host.moves = [.loadResp []] ∧ ([] : List Byte).length ≤ State.reset.params.size ∧
    (List.replicate 256 (0 : Byte)).length ≤ State.reset.params.size := by decide +kernel

end

end Sys2Proof.Tests
end

/-! PROOFS. The family 10_state: CMD (R32), CONFIG (R46), the state after reset (R61). -/

namespace Sys2Proof.Proofs

open Machine Laws

/-! ### The moves that are not writes touch the host's side only (R30, R85) -/

section

variable {s t : State} {m : Move}

/-- The engine of `t`, registers and buffers and parameters, is that of `s`; the host's side may differ. -/
def SameEngine (s t : State) : Prop := ∃ h : HostSide, t = s.setHost h

theorem sameEngine_params (h : SameEngine s t) : t.params = s.params := by
  obtain ⟨host, rfl⟩ := h
  rfl

theorem sameEngine_refl (s : State) : SameEngine s s := ⟨s.host, rfl⟩

theorem sameEngine_setHost (s : State) (h : HostSide) : SameEngine s (s.setHost h) := ⟨h, rfl⟩

theorem sameEngine_pushMoves (ms : List Move) (s : State) : SameEngine s (pushMoves ms s) := ⟨_, rfl⟩

theorem sameEngine_endProgram (o : HostOutcome) (s : State) : SameEngine s (endProgram o s) := ⟨_, rfl⟩

theorem sameEngine_afterRead (n : Nat) (draw : List Byte) (s : State) : SameEngine s (afterRead n draw s) := ⟨_, rfl⟩

theorem sameEngine_afterDiscard (s : State) : SameEngine s (afterDiscard s) := ⟨_, rfl⟩

theorem sameEngine_afterWrite (frame : List Byte) (timedOut : Bool) (s : State) :
    SameEngine s (afterWrite frame timedOut s) := by
  cases timedOut <;> exact ⟨_, rfl⟩

theorem sameEngine_runBusRead {addr : Word} {n : Nat} (h : runBusRead addr n s = .next t) : SameEngine s t := by
  unfold runBusRead at h
  split at h <;> cases h
  exact sameEngine_setHost ..

theorem sameEngine_runReadValue {i : Nat} (h : runReadValue i s = .next t) : SameEngine s t := by
  unfold runReadValue at h
  split at h <;> cases h
  exact sameEngine_setHost ..

theorem sameEngine_runXmit (h : runXmit s = .next t) : SameEngine s t := by
  unfold runXmit at h
  split at h
  · cases h
  · split at h <;> cases h
    exact sameEngine_afterWrite ..

theorem sameEngine_runRecv {n : Nat} (h : runRecv n s = .next t) : SameEngine s t := by
  cases h
  exact sameEngine_afterRead ..

theorem sameEngine_runRecvExpected (h : runRecvExpected s = .next t) : SameEngine s t := by
  unfold runRecvExpected at h
  split at h
  · cases h
  · split at h
    · cases h
    · exact sameEngine_runRecv h

theorem sameEngine_runFailUnlessOk (h : runFailUnlessOk s = .next t) : SameEngine s t := by
  unfold runFailUnlessOk at h
  split at h
  · cases h
  · split at h <;> cases h
    · exact sameEngine_refl s
    · exact sameEngine_endProgram ..

theorem sameEngine_runReadValues (h : runReadValues s = .next t) : SameEngine s t := by
  unfold runReadValues at h
  split at h <;> cases h
  exact sameEngine_pushMoves ..

theorem sameEngine_runReadOp {op : ReadOp} (h : runReadOp op s = .next t) : SameEngine s t := by
  unfold runReadOp at h
  split at h <;> cases h
  exact ⟨_, rfl⟩

/-- Everything one move can do when it answers a next state: a bus write, the reset input, or a change of the host's side
alone. -/
theorem runMove_next (h : runMove m s = .next t) :
    (∃ addr n v, m = .busWrite addr n v ∧ memWrite s (busOffset s.params addr) n v = .next t) ∨
    (m = .platformReset ∧ t = s.hwReset) ∨ SameEngine s t := by
  cases m with
  | busWrite addr n v => exact .inl ⟨addr, n, v, rfl, h⟩
  | platformReset => cases h; exact .inr (.inl ⟨rfl, rfl⟩)
  | busRead addr n => exact .inr (.inr (sameEngine_runBusRead h))
  | readValue i => exact .inr (.inr (sameEngine_runReadValue h))
  | loadResp bytes => cases h; exact .inr (.inr (sameEngine_pushMoves ..))
  | loadReceived => cases h; exact .inr (.inr (sameEngine_pushMoves ..))
  | xmit => exact .inr (.inr (sameEngine_runXmit h))
  | recv n => exact .inr (.inr (sameEngine_runRecv h))
  | recvDiscard n => cases h; exact .inr (.inr (sameEngine_afterDiscard s))
  | recvExpected => exact .inr (.inr (sameEngine_runRecvExpected h))
  | failUnlessOk => exact .inr (.inr (sameEngine_runFailUnlessOk h))
  | readValues => exact .inr (.inr (sameEngine_runReadValues h))
  | succeed => cases h; exact .inr (.inr (sameEngine_setHost ..))
  | readOp op => exact .inr (.inr (sameEngine_runReadOp h))

end

/-! ### The parameters never change (R46) -/

section

variable {s t : State}

theorem memWrite_params {off v : Word} {n : Nat} (h : memWrite s off n v = .next t) : t.params = s.params := by
  obtain ⟨-, -, he⟩ | ⟨r, -, -, -, -, rfl⟩ | ⟨i, -, -, -, rfl⟩ := memWrite_next h
  · obtain ⟨hp, -⟩ := execute_same he
    exact hp
  · exact writeReg_params ..
  · rfl

theorem runMove_params {m : Move} (h : runMove m s = .next t) : t.params = s.params := by
  obtain ⟨addr, n, v, -, hw⟩ | ⟨-, rfl⟩ | he := runMove_next h
  · exact memWrite_params hw
  · rfl
  · exact sameEngine_params he

theorem step_params (h : step s = .next t) : t.params = s.params := by
  cases hm : s.host.moves with
  | nil =>
    have hs : step s = .next s := by simp only [step, hm]
    cases hs.symm.trans h
    rfl
  | cons m rest => exact (runMove_params ((step_cons hm).symm.trans h)).trans (setMoves_params ..)

end

/-! ### CONFIG (R46) -/

/-- The bits of CONFIG: SIZE below 16, BITMODE at 16, 0 above. -/
theorem configWord_getLsbD (p : Params) (i : Nat) :
    (configWord p).getLsbD i = (p.ibufSize.getLsbD i || (decide (i = 16) && decide (p.bitMode = .padded))) := by
  have hsize : (p.ibufSize.setWidth 32).getLsbD i = p.ibufSize.getLsbD i := by
    simpa using fun h => (BitVec.lt_of_getLsbD h).trans (by decide)
  have hbit : (0x00010000 : Word) = BitVec.twoPow 32 16 := rfl
  cases hm : p.bitMode <;>
    simp [configWord, hm, hbit, BitVec.getLsbD_or, hsize, Bool.or_comm, eq_comm, -BitVec.getLsbD_setWidth]

theorem configWord_size (p : Params) : (configWord p).extractLsb' 0 16 = p.ibufSize := by
  apply BitVec.eq_of_getLsbD_eq
  intro i hi
  have hne : i ≠ 16 := by omega
  simp [configWord_getLsbD, hi, hne]

theorem configWord_bitMode (p : Params) : (configWord p).getLsbD 16 = true ↔ p.bitMode = .padded := by
  rw [configWord_getLsbD, BitVec.getLsbD_of_ge _ _ (Nat.le_refl 16)]
  simp

theorem configWord_reserved (p : Params) : (configWord p).extractLsb' 17 15 = 0 := by
  apply BitVec.eq_of_getLsbD_eq
  intro i hi
  have hge : p.ibufSize.getLsbD (17 + i) = false := BitVec.getLsbD_of_ge _ _ (by omega)
  have hne : 17 + i ≠ 16 := by omega
  simp [configWord_getLsbD, hge, hne]

/-- R31, R78: the bus refuses a write of a read-only register, whatever its width. -/
theorem memWrite_readOnly (s : State) (v : Word) (n : Nat) {r : Reg} (hr : r.hostWritable = false) :
    memWrite s r.offset n v = .fault (.busError r.offset) := by
  unfold memWrite
  cases ha : accepted s.params r.offset n with
  | none => rfl
  | some l =>
    obtain rfl : l = .reg r := Option.some.inj ((accepted_iff.mp ha).1.symm.trans (locate_reg.mpr rfl))
    cases r with
    | status | obufLen | crc | explen | vcount | config => rfl
    | _ => exact absurd hr (by decide)

/-- Settles O42: CONFIG is computed from the parameters, which no step changes. -/
theorem configConstant : Obligations.ConfigConstant :=
  ⟨fun s => ⟨configWord s.params, memRead_reg s .config, configWord_size _, configWord_bitMode _, configWord_reserved _⟩,
    fun s v n => memWrite_readOnly s v n (r := .config) rfl, fun _ _ => step_params⟩

/-! ### CMD (R32) -/

section

variable {s t : State}

theorem memWrite_cmd (s : State) (w : Word) : memWrite s 0x000 4 w = execute w { s with cmd := w } := by
  have ha : accepted s.params 0x000 4 = some (.reg .cmd) := accepted_reg s.params .cmd
  unfold memWrite
  rw [ha]
  rfl

/-- No command writes CMD, so the word written is the word read. -/
theorem memRead_cmd_of_memWrite {w : Word} (h : memWrite s 0x000 4 w = .next t) : memRead t 0x000 4 = .ok w := by
  rw [memWrite_cmd] at h
  obtain ⟨-, hc, -⟩ := execute_same h
  exact (memRead_reg t .cmd).trans (congrArg Except.ok hc)

/-- R76, R85: a read of CMD gives its word to the host and changes nothing else. -/
theorem step_busRead_cmd {rest : List Move} (h : s.host.moves = .busRead (busAddr s.params 0) 4 :: rest) :
    step s = .next { s with host := { s.host with moves := rest, readData := some s.cmd } } := by
  have hr : memRead (s.setMoves rest) 0 4 = .ok s.cmd := memRead_reg (s.setMoves rest) .cmd
  rw [step_cons h]
  simp only [runMove, runBusRead, setMoves_params, busOffset_busAddr, hr]
  rfl

theorem writeReg_cmd_of_ne {r : Reg} (s : State) (v : Word) (h : r ≠ .cmd) : (s.writeReg r v).cmd = s.cmd := by
  cases r with
  | cmd => exact absurd rfl h
  | _ => rfl

/-- R32: a write elsewhere starts no command: CMD, STATUS and the registers and buffers a command answers in stay. -/
theorem memWrite_elsewhere {off v : Word} {n : Nat} (hoff : off ≠ 0) (h : memWrite s off n v = .next t) :
    t.cmd = s.cmd ∧ t.status = s.status ∧ t.crc = s.crc ∧ t.obufLen = s.obufLen ∧ t.obuf = s.obuf ∧
    t.explen = s.explen ∧ t.vcount = s.vcount ∧ t.values = s.values := by
  obtain ⟨hc, -, -⟩ | ⟨r, -, -, -, hr, rfl⟩ | ⟨i, -, -, -, rfl⟩ := memWrite_next h
  · exact absurd hc hoff
  · simp [writeReg_cmd_of_ne s v hr]
  · simp

end

/-- Settles O8: offset 0 is the offset of CMD alone, and no command writes CMD. -/
theorem cmdWriteExecutes : Obligations.CmdWriteExecutes :=
  ⟨memWrite_cmd, fun _ _ _ => memRead_cmd_of_memWrite, fun p => memRead_reg (State.resetFor p) .cmd,
    fun _ _ => step_busRead_cmd, fun _ _ _ _ _ => memWrite_elsewhere⟩

/-! ### After reset (R61) -/

/-- R71: the registers are numbered without gaps. -/
theorem exists_reg_index {k : Nat} (h : k < 15) : ∃ r : Reg, k = r.index := by
  suffices hr : ∃ r, regAt k = some r by
    obtain ⟨r, hr⟩ := hr
    exact ⟨r, regAt_eq_some.mp hr⟩
  interval_cases k <;> exact ⟨_, rfl⟩

theorem readReg_resetFor (p : Params) {r : Reg} (hs : r ≠ .status) (hc : r ≠ .config) :
    (State.resetFor p).readReg r = 0 := by
  cases r with
  | status => exact absurd rfl hs
  | config => exact absurd rfl hc
  | _ => rfl

/-- Settles O43: every register but STATUS and CONFIG is 0 after reset, for any parameters. -/
theorem resetLeaves : Obligations.ResetLeaves := by
  refine ⟨fun p k hk hk1 => ?_, fun p => ⟨memRead_reg _ .status, memRead_reg _ .config⟩,
    fun p i => ⟨rfl, rfl, rfl⟩, Params.reference, by decide, rfl⟩
  obtain ⟨r, rfl⟩ := exists_reg_index (k := k) (by omega)
  have hs : r ≠ .status := by rintro rfl; exact hk1 rfl
  have hc : r ≠ .config := by rintro rfl; exact absurd hk (by decide)
  exact (memRead_reg _ r).trans (congrArg Except.ok (readReg_resetFor p hs hc))

end Sys2Proof.Proofs

/-! PROOFS. The family 20_memory: which host accesses are accepted (R78), what a read answers (R76), what a write does
(R77). -/

namespace Sys2Proof.Proofs

open Machine Laws

/-! ### No command faults with BusError (R60, R294) -/

section

variable {s : State} {a b : Host.Outcome State Fault Refusal}

/-- How a command ends: with a next state, or at an unwritten byte of IBUF[0 : IBUF_SIZE]. -/
def CompletesOrUnwritten (s : State) (o : Host.Outcome State Fault Refusal) : Prop :=
  (∃ t, o = .next t) ∨
  ∃ k, k < s.params.size ∧ Memory.read s.ibuf k = none ∧ o = .fault (.unwritten (.ibuf k))

theorem completesOrUnwritten_next (s t : State) : CompletesOrUnwritten s (.next t) := .inl ⟨t, rfl⟩

theorem completesOrUnwritten_raise (s : State) (c : Status) (t : State) : CompletesOrUnwritten s (raise c t) :=
  completesOrUnwritten_next ..

theorem completesOrUnwritten_finish (s t : State) : CompletesOrUnwritten s (finish t) := completesOrUnwritten_next ..

theorem completesOrUnwritten_ite {c : Prop} [Decidable c] (ha : CompletesOrUnwritten s a)
    (hb : CompletesOrUnwritten s b) : CompletesOrUnwritten s (if c then a else b) := by
  split
  · exact ha
  · exact hb

theorem completesOrUnwritten_withLength {k : Nat → Host.Outcome State Fault Refusal}
    (hk : LengthInBounds s → CompletesOrUnwritten s (k s.ibufLen.toNat)) :
    CompletesOrUnwritten s (withLength s k) := by
  obtain ⟨hl, he⟩ | ⟨-, he⟩ := withLength_cases s k
  · exact he ▸ hk hl
  · exact he ▸ completesOrUnwritten_raise ..

theorem completesOrUnwritten_withWindow {k : Nat → Nat → Host.Outcome State Fault Refusal}
    (hk : WindowInBounds s → CompletesOrUnwritten s (k s.poff.toNat s.plen.toNat)) :
    CompletesOrUnwritten s (withWindow s k) := by
  obtain ⟨hw, he⟩ | ⟨-, he⟩ := withWindow_cases s k
  · exact he ▸ hk hw
  · exact he ▸ completesOrUnwritten_raise ..

/-- A read of a range that lies in IBUF unless it is empty. -/
theorem completesOrUnwritten_withBytes {o n : Nat} {k : List Byte → Host.Outcome State Fault Refusal}
    (hin : 0 < n → o + n ≤ s.params.size) (hk : ∀ bs, CompletesOrUnwritten s (k bs)) :
    CompletesOrUnwritten s (withBytes s o n k) := by
  obtain ⟨bs, -, -, he⟩ | ⟨i, ⟨ho, hn, hnone, -⟩, he⟩ := withBytes_cases s o n k
  · exact he ▸ hk bs
  · have hpos : 0 < n := by omega
    exact .inr ⟨i, hn.trans_le (hin hpos), hnone, he⟩

theorem window_end_le_size (hw : WindowInBounds s) (hpos : 0 < s.plen.toNat) :
    s.poff.toNat + s.plen.toNat ≤ s.params.size := by
  obtain ⟨hlen, hwin⟩ := hw
  exact (hwin hpos).trans hlen

theorem completesOrUnwritten_crc16 (s : State) : CompletesOrUnwritten s (execCrc16 s) :=
  completesOrUnwritten_withLength fun hl =>
    completesOrUnwritten_withBytes (fun _ => (Nat.zero_add _).trans_le hl) fun _ => completesOrUnwritten_finish ..

theorem completesOrUnwritten_buildReq (s : State) : CompletesOrUnwritten s (execBuildReq s) :=
  completesOrUnwritten_ite (completesOrUnwritten_raise ..)
    (completesOrUnwritten_ite (completesOrUnwritten_raise ..) (completesOrUnwritten_finish ..))

theorem completesOrUnwritten_validate (s : State) : CompletesOrUnwritten s (execValidate s) :=
  completesOrUnwritten_withLength fun hl =>
    completesOrUnwritten_ite (completesOrUnwritten_raise ..) <|
      completesOrUnwritten_withBytes (fun _ => (Nat.zero_add _).trans_le hl) fun _ =>
        completesOrUnwritten_ite (completesOrUnwritten_raise ..) <|
          completesOrUnwritten_ite (completesOrUnwritten_raise ..) <|
            completesOrUnwritten_ite (completesOrUnwritten_raise ..) (completesOrUnwritten_finish ..)

theorem completesOrUnwritten_decodeBits (s : State) : CompletesOrUnwritten s (execDecodeBits s) := by
  refine completesOrUnwritten_withWindow fun hw => ?_
  have read (f : List Byte → List Value) : CompletesOrUnwritten s
      (withBytes s s.poff.toNat s.plen.toNat fun p => finish (s.putValues (f p))) :=
    completesOrUnwritten_withBytes (window_end_le_size hw) fun _ => completesOrUnwritten_finish ..
  split
  · exact read _
  · exact completesOrUnwritten_ite (completesOrUnwritten_raise ..) (read _)

theorem completesOrUnwritten_decodeChunks (W : Nat) (sgn : Bool) (s : State) :
    CompletesOrUnwritten s (decodeChunks W sgn s) :=
  completesOrUnwritten_withWindow fun hw =>
    completesOrUnwritten_ite (completesOrUnwritten_raise ..) <|
      completesOrUnwritten_withBytes (window_end_le_size hw) fun _ => completesOrUnwritten_finish ..

theorem completesOrUnwritten_plan (fn : Byte) (rpv : Nat) (s : State) : CompletesOrUnwritten s (plan fn rpv s) :=
  completesOrUnwritten_ite (completesOrUnwritten_raise ..) (completesOrUnwritten_finish ..)

/-- R294: a command completes or stops at an unwritten input byte; it never faults otherwise and is never refused. -/
theorem exec_completesOrUnwritten (i : Instr) (s : State) : CompletesOrUnwritten s (exec i s) := by
  cases i with
  | crc16 => exact completesOrUnwritten_crc16 s
  | buildReq => exact completesOrUnwritten_buildReq s
  | validate => exact completesOrUnwritten_validate s
  | decodeBits => exact completesOrUnwritten_decodeBits s
  | decodeIntU16 | decodeIntS16 | decodeIntU32 | decodeIntS32 | decodeIntU64 | decodeIntS64
  | decodeFloatF32 | decodeFloatF64 => exact completesOrUnwritten_decodeChunks ..
  | planCoils | planDiscrete | planInt16 | planInt32 | planInt64 | planFloat32 | planFloat64 =>
    exact completesOrUnwritten_plan ..

theorem execute_completesOrUnwritten (w : Word) (s : State) : CompletesOrUnwritten s (execute w s) := by
  unfold execute
  split
  · exact completesOrUnwritten_raise ..
  · exact completesOrUnwritten_raise ..
  · exact exec_completesOrUnwritten ..

theorem execute_ne_busError (w : Word) (s : State) (off : Word) : execute w s ≠ .fault (.busError off) := by
  obtain ⟨t, he⟩ | ⟨k, -, -, he⟩ := execute_completesOrUnwritten w s <;> simp [he]

end

/-! ### Which accesses are accepted (R71 to R75, R78) -/

section

variable {s : State} {off : Word} {n : Nat}

/-- R71: the words below 0x3C are the registers. -/
theorem exists_reg_offset (h : off.toNat < 0x3C) (h4 : off.toNat % 4 = 0) : ∃ r : Reg, off = r.offset := by
  obtain ⟨r, hr⟩ := exists_reg_index (k := off.toNat / 4) (by omega)
  refine ⟨r, BitVec.eq_of_toNat_eq ?_⟩
  rw [Reg.offset, ← hr, BitVec.toNat_ofNat]
  omega

theorem reg_offset_lt (r : Reg) : r.offset.toNat < 0x3C := by cases r <;> decide

theorem reg_offset_aligned (r : Reg) : r.offset.toNat % 4 = 0 := by cases r <;> decide

/-- R78: the regions of R71 to R74, each with its width, are what the engine accepts for a read. -/
theorem readable_iff : Readable s off n ↔ ∃ l, accepted s.params off n = some l := by
  constructor
  · rintro (⟨rfl, hlt, h4⟩ | ⟨rfl, hlo, hhi⟩ | ⟨rfl, hlo, hhi⟩ | ⟨rfl, hlo, hhi, h4⟩)
    · obtain ⟨r, rfl⟩ := exists_reg_offset hlt h4
      exact ⟨_, accepted_reg ..⟩
    · exact ⟨.ibuf (off.toNat - 0x10000), accepted_iff.mpr ⟨locate_ibuf.mpr (by omega), rfl⟩⟩
    · exact ⟨.obuf (off.toNat - 0x20000), accepted_iff.mpr ⟨locate_obuf.mpr (by omega), rfl⟩⟩
    · exact ⟨.valueWord ((off.toNat - 0x1000000) / 4), accepted_iff.mpr ⟨locate_valueWord.mpr (by omega), rfl⟩⟩
  · rintro ⟨l, hl⟩
    obtain ⟨hloc, rfl⟩ := accepted_iff.mp hl
    cases l with
    | reg r =>
      obtain rfl := locate_reg.mp hloc
      exact .inl ⟨rfl, reg_offset_lt r, reg_offset_aligned r⟩
    | ibuf i =>
      have hi := locate_ibuf.mp hloc
      exact .inr (.inl ⟨rfl, by omega, by omega⟩)
    | obuf i =>
      have hi := locate_obuf.mp hloc
      exact .inr (.inr (.inl ⟨rfl, by omega, by omega⟩))
    | valueWord j =>
      have hj := locate_valueWord.mp hloc
      exact .inr (.inr (.inr ⟨rfl, by omega, by omega, by omega⟩))

/-- The offsets of R77 are those of the registers the host may write. -/
theorem mem_writableOffsets :
    off ∈ ([0x000, 0x008, 0x00C, 0x010, 0x014, 0x018, 0x01C, 0x020, 0x024] : List Word) ↔
      ∃ r : Reg, r.hostWritable = true ∧ off = r.offset := by
  constructor
  · intro h
    have hmap : off ∈ [Reg.cmd, .func, .devAddr, .start, .qty, .count, .ibufLen, .poff, .plen].map Reg.offset := h
    obtain ⟨r, hr, rfl⟩ := List.mem_map.mp hmap
    refine ⟨r, ?_, rfl⟩
    revert hr
    cases r <;> decide
  · rintro ⟨r, hr, rfl⟩
    revert hr
    cases r <;> decide

/-- R78: what the engine accepts for a write is a read-write register or an IBUF byte. -/
theorem writable_iff :
    Writable s off n ↔ (∃ r, r.hostWritable = true ∧ accepted s.params off n = some (.reg r)) ∨
      ∃ i, accepted s.params off n = some (.ibuf i) := by
  refine or_congr ?_ ?_
  · rw [mem_writableOffsets]
    constructor
    · rintro ⟨rfl, r, hr, rfl⟩
      exact ⟨r, hr, accepted_reg ..⟩
    · rintro ⟨r, hr, ha⟩
      obtain ⟨hloc, hn⟩ := accepted_iff.mp ha
      exact ⟨hn, r, hr, locate_reg.mp hloc⟩
  · constructor
    · rintro ⟨rfl, hlo, hhi⟩
      exact ⟨off.toNat - 0x10000, accepted_iff.mpr ⟨locate_ibuf.mpr (by omega), rfl⟩⟩
    · rintro ⟨i, ha⟩
      obtain ⟨hloc, hn⟩ := accepted_iff.mp ha
      have hi := locate_ibuf.mp hloc
      exact ⟨hn, by omega, by omega⟩

end

/-! ### Reads (R76, R78) -/

section

variable {s t : State} {off : Word} {n : Nat} {l : Loc}

theorem memRead_of_accepted (ha : accepted s.params off n = some l) : memRead s off n = readLoc s l := by
  unfold memRead
  rw [ha]

theorem memRead_refused (h : ¬ Readable s off n) : memRead s off n = .error (.busError off) := by
  have ha : accepted s.params off n = none :=
    Option.eq_none_iff_forall_ne_some.mpr fun l hl => h (readable_iff.mpr ⟨l, hl⟩)
  unfold memRead
  rw [ha]

/-- R76: a location that holds no value faults with Unwritten, and nothing else of a location faults. -/
theorem readLoc_ne_busError (s : State) (l : Loc) (off : Word) : readLoc s l ≠ .error (.busError off) := by
  cases l with
  | reg r => simp [readLoc]
  | ibuf i => cases h : Memory.read s.ibuf i <;> simp [readLoc, h]
  | obuf i => cases h : Memory.read s.obuf i <;> simp [readLoc, h]
  | valueWord j => cases h : Memory.read s.values (j / 2) <;> simp [readLoc, h]

theorem memRead_busError_iff : memRead s off n = .error (.busError off) ↔ ¬ Readable s off n := by
  refine ⟨fun he h => ?_, memRead_refused⟩
  obtain ⟨l, hl⟩ := readable_iff.mp h
  exact readLoc_ne_busError s l off ((memRead_of_accepted hl).symm.trans he)

theorem memRead_ibuf (s : State) {i : Nat} (hi : i < s.params.size) :
    memRead s (BitVec.ofNat 32 (0x00010000 + i)) 1 =
      match Memory.read s.ibuf i with
      | some b => .ok (b.setWidth 32)
      | none => .error (.unwritten (.ibuf i)) := by
  rw [memRead_of_accepted (accepted_ibuf hi)]
  cases h : Memory.read s.ibuf i <;> simp [readLoc, h]

theorem memRead_obuf (s : State) {i : Nat} (hi : i < 8) :
    memRead s (BitVec.ofNat 32 (0x00020000 + i)) 1 =
      match Memory.read s.obuf i with
      | some b => .ok (b.setWidth 32)
      | none => .error (.unwritten (.obuf i)) := by
  rw [memRead_of_accepted (accepted_obuf hi)]
  cases h : Memory.read s.obuf i <;> simp [readLoc, h]

/-- R74: entry e of VALUES is words 2e (low) and 2e + 1 (high) of its region. -/
theorem memRead_values_low (s : State) {e : Nat} (he : e < s.params.vcap) :
    memRead s (BitVec.ofNat 32 (0x01000000 + 8 * e)) 4 =
      match Memory.read s.values e with
      | some v => .ok (v.extractLsb' 0 32)
      | none => .error (.unwritten (.values e)) := by
  have ha := accepted_valueWord (p := s.params) (j := 2 * e) (by omega)
  have hhalf : 2 * e / 2 = e := by omega
  rw [show 0x01000000 + 8 * e = 0x01000000 + 4 * (2 * e) by omega, memRead_of_accepted ha]
  cases h : Memory.read s.values e <;> simp [readLoc, hhalf, h]

theorem memRead_values_high (s : State) {e : Nat} (he : e < s.params.vcap) :
    memRead s (BitVec.ofNat 32 (0x01000000 + 8 * e + 4)) 4 =
      match Memory.read s.values e with
      | some v => .ok (v.extractLsb' 32 32)
      | none => .error (.unwritten (.values e)) := by
  have ha := accepted_valueWord (p := s.params) (j := 2 * e + 1) (by omega)
  have hhalf : (2 * e + 1) / 2 = e := by omega
  rw [show 0x01000000 + 8 * e + 4 = 0x01000000 + 4 * (2 * e + 1) by omega, memRead_of_accepted ha]
  cases h : Memory.read s.values e <;> simp [readLoc, hhalf, h]

/-- R76, R85: a bus read gives the host its data; of the rest only the move is taken off the list. -/
theorem step_busRead {addr : Word} {rest : List Move} (hm : s.host.moves = .busRead addr n :: rest)
    (h : step s = .next t) : t = { s with host := { s.host with moves := rest, readData := t.host.readData } } := by
  rw [step_cons hm] at h
  simp only [runMove, runBusRead] at h
  split at h <;> cases h
  rfl

/-- A read of an element that is the same in both states answers the same. -/
theorem memRead_congr_readLoc (hp : t.params = s.params)
    (h : ∀ l, locate s.params off = some l → readLoc t l = readLoc s l) : memRead t off n = memRead s off n := by
  unfold memRead
  rw [hp]
  cases ha : accepted s.params off n with
  | none => rfl
  | some l => exact h l (accepted_iff.mp ha).1

end

/-- Settles O40: each register, each byte and each half of an entry is read where R71 to R74 place it. -/
theorem memReadAnswers : Obligations.MemReadAnswers :=
  ⟨fun s => ⟨memRead_reg s .cmd, memRead_reg s .status, memRead_reg s .func, memRead_reg s .devAddr,
      memRead_reg s .start, memRead_reg s .qty, memRead_reg s .count, memRead_reg s .ibufLen, memRead_reg s .poff,
      memRead_reg s .plen, memRead_reg s .obufLen, memRead_reg s .crc, memRead_reg s .explen, memRead_reg s .vcount,
      memRead_reg s .config⟩,
    fun s _ hi => memRead_ibuf s hi, fun s _ hi => memRead_obuf s hi,
    fun s _ he => ⟨memRead_values_low s he, memRead_values_high s he⟩, fun _ _ _ _ _ => step_busRead⟩

/-! ### Writes (R77, R78) -/

section

variable {s : State} {off v : Word} {n : Nat}

theorem memWrite_refused (h : ¬ Writable s off n) : memWrite s off n v = .fault (.busError off) := by
  rw [writable_iff] at h
  unfold memWrite
  split
  · rename_i ha
    exact absurd (.inl ⟨_, rfl, ha⟩) h
  · rename_i r _ ha
    exact if_neg fun hr => h (.inl ⟨r, hr, ha⟩)
  · rename_i i ha
    exact absurd (.inr ⟨i, ha⟩) h
  · rfl
  · rfl
  · rfl

/-- R77: an accepted register write other than CMD's stores the kept bits. -/
theorem memWrite_reg (s : State) (v : Word) {r : Reg} (hw : r.hostWritable = true) (hcmd : r ≠ .cmd) :
    memWrite s r.offset 4 v = .next (s.writeReg r v) := by
  unfold memWrite
  rw [accepted_reg]
  cases r with
  | cmd => exact absurd rfl hcmd
  | _ => exact if_pos hw

theorem memWrite_ibuf {i : Nat} (ha : accepted s.params off n = some (.ibuf i)) :
    memWrite s off n v = .next (s.writeIbuf i (v.setWidth 8)) := by
  unfold memWrite
  rw [ha]

/-- An accepted write answers no BusError: the fault of a command a CMD write starts is Unwritten. -/
theorem memWrite_busError_iff : memWrite s off n v = .fault (.busError off) ↔ ¬ Writable s off n := by
  refine ⟨fun he h => ?_, memWrite_refused⟩
  obtain ⟨r, hr, ha⟩ | ⟨i, ha⟩ := writable_iff.mp h
  · obtain ⟨hloc, rfl⟩ := accepted_iff.mp ha
    obtain rfl := locate_reg.mp hloc
    by_cases hcmd : r = .cmd
    · subst hcmd
      exact execute_ne_busError _ _ _ ((memWrite_cmd s v).symm.trans he)
    · cases (memWrite_reg s v hr hcmd).symm.trans he
  · cases (memWrite_ibuf ha).symm.trans he

/-- R77: the bits of a host write that a register keeps; a read-only register keeps none. -/
def keepMask : Reg → Word
  | .func => 0x000000FF
  | .ibufLen | .poff | .plen => 0x0000FFFF
  | .cmd | .devAddr | .start | .qty | .count => 0xFFFFFFFF
  | .status | .obufLen | .crc | .explen | .vcount | .config => 0

theorem exists_reg_of_mem_keepMasks {mask : Word} (h : (off, mask) ∈ keepMasks) :
    ∃ r : Reg, r.hostWritable = true ∧ r ≠ .cmd ∧ off = r.offset ∧ mask = keepMask r := by
  have hmap : (off, mask) ∈ [Reg.func, .devAddr, .start, .qty, .count, .ibufLen, .poff, .plen].map
      fun r => (r.offset, keepMask r) := h
  obtain ⟨r, hr, he⟩ := List.mem_map.mp hmap
  cases he
  refine ⟨r, ?_, ?_, rfl, rfl⟩ <;> revert hr <;> cases r <;> decide

/-- Keeping the low k bits of a word is masking it. -/
theorem setWidth_setWidth_eq_and (k : Nat) (v : Word) :
    (v.setWidth k).setWidth 32 = v &&& (BitVec.allOnes k).setWidth 32 := by
  ext i hi
  simp [Bool.and_comm, BitVec.getLsbD_eq_getElem hi]

theorem readReg_writeReg_same (s : State) (v : Word) {r : Reg} (hw : r.hostWritable = true) :
    (s.writeReg r v).readReg r = v &&& keepMask r := by
  cases r with
  | cmd | devAddr | start | qty | count => exact BitVec.and_allOnes.symm
  | func => exact setWidth_setWidth_eq_and 8 v
  | ibufLen | poff | plen => exact setWidth_setWidth_eq_and 16 v
  | status | obufLen | crc | explen | vcount | config => exact absurd hw (by decide)

/-- No two registers share a field of the state. -/
theorem readReg_writeReg_other (s : State) (v : Word) {r r' : Reg} (h : r' ≠ r) :
    (s.writeReg r v).readReg r' = s.readReg r' := by
  cases r <;> cases r' <;> first | exact absurd rfl h | rfl

theorem readLoc_writeReg_other (s : State) (v : Word) {r : Reg} {l : Loc} (h : l ≠ .reg r) :
    readLoc (s.writeReg r v) l = readLoc s l := by
  cases l with
  | reg r' => exact congrArg Except.ok (readReg_writeReg_other s v fun he => h (congrArg Loc.reg he))
  | ibuf i => simp only [readLoc, writeReg_ibuf]
  | obuf i => simp only [readLoc, writeReg_obuf]
  | valueWord j => simp only [readLoc, writeReg_values]

theorem readLoc_writeIbuf_other (s : State) (b : Byte) {i : Nat} {l : Loc} (h : l ≠ .ibuf i) :
    readLoc (s.writeIbuf i b) l = readLoc s l := by
  cases l with
  | reg r => cases r <;> rfl
  | ibuf j =>
    have hne : j ≠ i := fun he => h (congrArg Loc.ibuf he)
    simp only [readLoc, writeIbuf_ibuf, memory_read_write_other _ _ hne]
  | obuf i => rfl
  | valueWord j => rfl

/-- R77: a register write is seen at its own offset only. -/
theorem memRead_writeReg_other (s : State) (v : Word) (n : Nat) {r : Reg} (h : off ≠ r.offset) :
    memRead (s.writeReg r v) off n = memRead s off n := by
  refine memRead_congr_readLoc (writeReg_params ..) fun l hl => readLoc_writeReg_other s v ?_
  rintro rfl
  exact h (locate_reg.mp hl)

/-- R77: an IBUF byte write is seen at its own offset only. -/
theorem memRead_writeIbuf_other (s : State) (b : Byte) (n : Nat) {i : Nat}
    (h : off ≠ BitVec.ofNat 32 (0x00010000 + i)) : memRead (s.writeIbuf i b) off n = memRead s off n := by
  refine memRead_congr_readLoc (writeIbuf_params ..) fun l hl => readLoc_writeIbuf_other s b ?_
  rintro rfl
  obtain ⟨hoff, -⟩ := locate_ibuf.mp hl
  exact h (by rw [← hoff, BitVec.ofNat_toNat, BitVec.setWidth_eq])

theorem memWrite_keepMasks (s : State) {mask : Word} (v : Word) (h : (off, mask) ∈ keepMasks) :
    ∃ t, memWrite s off 4 v = .next t ∧ memRead t off 4 = .ok (v &&& mask) ∧
      (∀ (off' : Word) (n : Nat), off' ≠ off → memRead t off' n = memRead s off' n) ∧
      t.ibuf = s.ibuf ∧ t.obuf = s.obuf ∧ t.values = s.values ∧ t.host = s.host := by
  obtain ⟨r, hw, hcmd, rfl, rfl⟩ := exists_reg_of_mem_keepMasks h
  exact ⟨s.writeReg r v, memWrite_reg s v hw hcmd,
    (memRead_reg _ r).trans (congrArg Except.ok (readReg_writeReg_same s v hw)),
    fun _ n hne => memRead_writeReg_other s v n hne,
    writeReg_ibuf .., writeReg_obuf .., writeReg_values .., writeReg_host ..⟩

theorem memWrite_ibufByte (s : State) {i : Nat} (v : Word) (hi : i < s.params.size) :
    ∃ t, memWrite s (BitVec.ofNat 32 (0x00010000 + i)) 1 v = .next t ∧
      t = { s with ibuf := t.ibuf } ∧
      Memory.read t.ibuf i = some (v.extractLsb' 0 8) ∧
      (∀ j, j ≠ i → Memory.read t.ibuf j = Memory.read s.ibuf j) ∧
      (∀ (off' : Word) (n : Nat), off' ≠ BitVec.ofNat 32 (0x00010000 + i) → memRead t off' n = memRead s off' n) := by
  have hbyte : v.setWidth 8 = v.extractLsb' 0 8 := BitVec.setWidth_eq_extractLsb' (by decide)
  exact ⟨s.writeIbuf i (v.setWidth 8), memWrite_ibuf (accepted_ibuf hi), rfl,
    hbyte ▸ memory_read_write_same s.ibuf i (v.setWidth 8),
    fun _ hne => memory_read_write_other s.ibuf _ hne, fun _ n hne => memRead_writeIbuf_other s _ n hne⟩

end

/-- Settles O39: an accepted access answers data, a next state or an Unwritten fault, never BusError. -/
theorem busErrorExactly : Obligations.BusErrorExactly :=
  ⟨fun _ _ _ => memRead_busError_iff, fun _ _ _ _ => memWrite_busError_iff⟩

/-- Settles O41: a write changes the one element its offset selects, and every read goes through one element. -/
theorem memWriteEffects : Obligations.MemWriteEffects :=
  ⟨memWrite_cmd, fun s _ _ v => memWrite_keepMasks s v, fun s _ v => memWrite_ibufByte s v,
    fun _ _ _ _ => memWrite_refused⟩

end Sys2Proof.Proofs

/-! PROOFS. The family 30_encoding: the accepted words (R105) and the words rejected as InvalidFormat (R106) and as
IllegalCommand (R107). -/

namespace Sys2Proof.Proofs

open Machine Laws

/-! ### A word is its fields (R100) -/

section

variable {w : Word} {f : Fields}

/-- The fields lie next to each other and cover the word. -/
@[simp] theorem wordOf_fieldsOf (w : Word) : wordOf (fieldsOf w) = w := by
  unfold wordOf fieldsOf
  rw [BitVec.extractLsb'_append_extractLsb'_eq_extractLsb', BitVec.extractLsb'_append_extractLsb'_eq_extractLsb',
    BitVec.extractLsb'_append_extractLsb'_eq_extractLsb', BitVec.extractLsb'_append_extractLsb'_eq_extractLsb',
    BitVec.extractLsb'_eq_self] <;> rfl

@[simp] theorem fieldsOf_wordOf (f : Fields) : fieldsOf (wordOf f) = f := by
  unfold fieldsOf wordOf
  congr 1
  · exact BitVec.extractLsb'_append_eq_right
  · rw [BitVec.extractLsb'_append_eq_of_le (by decide), BitVec.extractLsb'_append_eq_right]
  · rw [BitVec.extractLsb'_append_eq_of_le (by decide), BitVec.extractLsb'_append_eq_of_le (by decide),
      BitVec.extractLsb'_append_eq_right]
  · rw [BitVec.extractLsb'_append_eq_of_le (by decide), BitVec.extractLsb'_append_eq_of_le (by decide),
      BitVec.extractLsb'_append_eq_of_le (by decide), BitVec.extractLsb'_append_eq_right]
  · rw [BitVec.extractLsb'_append_eq_of_le (by decide), BitVec.extractLsb'_append_eq_of_le (by decide),
      BitVec.extractLsb'_append_eq_of_le (by decide), BitVec.extractLsb'_append_eq_left]

theorem fieldsOf_eq_iff : fieldsOf w = f ↔ wordOf f = w :=
  ⟨fun h => h ▸ wordOf_fieldsOf w, fun h => h ▸ fieldsOf_wordOf f⟩

end

/-! ### What the decoder answers, by the fields (R101) -/

/-- R107: a bit of RSVD is set, the opcode is reserved, or a field the operation marks 0 is not 0. -/
def IllegalFields (f : Fields) : Prop :=
  f.rsvd ≠ 0 ∨ f.opc = 0 ∨ 8 ≤ f.opc.toNat ∨
  ((1 ≤ f.opc.toNat ∧ f.opc.toNat ≤ 4) ∧ (f.wsel ≠ 0 ∨ f.sgn ≠ 0 ∨ f.kind ≠ 0)) ∨
  (f.opc = 5 ∧ f.kind ≠ 0) ∨
  (f.opc = 6 ∧ (f.sgn ≠ 0 ∨ f.kind ≠ 0)) ∨
  (f.opc = 7 ∧ (f.sgn ≠ 0 ∨ (f.kind.toNat < 2 ∧ f.wsel ≠ 0)))

/-- R106: the fields, none of them illegal, whose width or precision selector is not a recognised one. -/
def unknownSelectorFields : List Fields :=
  [⟨5, 3, 0, 0, 0⟩, ⟨5, 3, 1, 0, 0⟩, ⟨6, 0, 0, 0, 0⟩, ⟨6, 3, 0, 0, 0⟩, ⟨7, 3, 0, 2, 0⟩, ⟨7, 0, 0, 3, 0⟩,
   ⟨7, 3, 0, 3, 0⟩]

/-- The fields for which R101 and R105 prescribe the answer `r`. -/
def Answers (f : Fields) : Except Reject Instr → Prop
  | .ok i => f = instrFields i
  | .error .illegalCommand => IllegalFields f
  | .error .invalidFormat => f ∈ unknownSelectorFields

section

variable {f : Fields} {i : Instr} {r : Except Reject Instr}

theorem two_bits_cases : ∀ b : BitVec 2, b = 0 ∨ b = 1 ∨ b = 2 ∨ b = 3 := by decide

theorem illegalFields_planBits {wsel kind : BitVec 2} (hk : kind.toNat < 2) (hw : wsel ≠ 0) :
    IllegalFields ⟨7, wsel, 0, kind, 0⟩ :=
  .inr (.inr (.inr (.inr (.inr (.inr ⟨rfl, .inr ⟨hk, hw⟩⟩)))))

/-- Operations 1 to 4: one accepted word each. -/
theorem answers_decodePlain (wsel : BitVec 2) (sgn : BitVec 1) (kind : BitVec 2) {opc : BitVec 4}
    (hi : instrFields i = ⟨opc, 0, 0, 0, 0⟩) (hopc : 1 ≤ opc.toNat ∧ opc.toNat ≤ 4) :
    Answers ⟨opc, wsel, sgn, kind, 0⟩ (decodePlain ⟨opc, wsel, sgn, kind, 0⟩ i) := by
  unfold decodePlain
  split
  case isTrue h =>
    obtain ⟨rfl, rfl, rfl⟩ := h
    exact hi.symm
  case isFalse h =>
    have hne : wsel ≠ 0 ∨ sgn ≠ 0 ∨ kind ≠ 0 := by tauto
    exact .inr (.inr (.inr (.inl ⟨hopc, hne⟩)))

/-- Operation 5: KIND first, then WSEL = 3 is no width. -/
theorem answers_decodeInt (wsel : BitVec 2) (sgn : BitVec 1) (kind : BitVec 2) :
    Answers ⟨5, wsel, sgn, kind, 0⟩ (decodeInt ⟨5, wsel, sgn, kind, 0⟩) := by
  by_cases hk : kind ≠ 0
  · rw [decodeInt, if_pos hk]
    exact .inr (.inr (.inr (.inr (.inl ⟨rfl, hk⟩))))
  · obtain rfl : kind = 0 := not_not.mp hk
    obtain rfl | rfl | rfl | rfl := two_bits_cases wsel
    · obtain rfl | rfl := BitVec.eq_zero_or_eq_one sgn <;> exact rfl
    · obtain rfl | rfl := BitVec.eq_zero_or_eq_one sgn <;> exact rfl
    · obtain rfl | rfl := BitVec.eq_zero_or_eq_one sgn <;> exact rfl
    · obtain rfl | rfl := BitVec.eq_zero_or_eq_one sgn
      · exact (by decide : ⟨5, 3, 0, 0, 0⟩ ∈ unknownSelectorFields)
      · exact (by decide : ⟨5, 3, 1, 0, 0⟩ ∈ unknownSelectorFields)

/-- Operation 6: SGN and KIND first, then WSEL = 0 and WSEL = 3 are no precision. -/
theorem answers_decodeFloat (wsel : BitVec 2) (sgn : BitVec 1) (kind : BitVec 2) :
    Answers ⟨6, wsel, sgn, kind, 0⟩ (decodeFloat ⟨6, wsel, sgn, kind, 0⟩) := by
  by_cases h : sgn ≠ 0 ∨ kind ≠ 0
  · rw [decodeFloat, if_pos h]
    exact .inr (.inr (.inr (.inr (.inr (.inl ⟨rfl, h⟩)))))
  · obtain ⟨rfl, rfl⟩ : sgn = 0 ∧ kind = 0 := by tauto
    obtain rfl | rfl | rfl | rfl := two_bits_cases wsel
    · exact (by decide : ⟨6, 0, 0, 0, 0⟩ ∈ unknownSelectorFields)
    · exact rfl
    · exact rfl
    · exact (by decide : ⟨6, 3, 0, 0, 0⟩ ∈ unknownSelectorFields)

/-- Operation 7: SGN first, then WSEL by KIND; the bit kinds use no WSEL. -/
theorem answers_decodePlan (wsel : BitVec 2) (sgn : BitVec 1) (kind : BitVec 2) :
    Answers ⟨7, wsel, sgn, kind, 0⟩ (decodePlan ⟨7, wsel, sgn, kind, 0⟩) := by
  by_cases hs : sgn ≠ 0
  · rw [decodePlan, if_pos hs]
    exact .inr (.inr (.inr (.inr (.inr (.inr ⟨rfl, .inl hs⟩)))))
  · obtain rfl : sgn = 0 := not_not.mp hs
    obtain rfl | rfl | rfl | rfl := two_bits_cases kind
    · obtain rfl | rfl | rfl | rfl := two_bits_cases wsel
      · exact rfl
      all_goals exact illegalFields_planBits (by decide) (by decide)
    · obtain rfl | rfl | rfl | rfl := two_bits_cases wsel
      · exact rfl
      all_goals exact illegalFields_planBits (by decide) (by decide)
    · obtain rfl | rfl | rfl | rfl := two_bits_cases wsel
      · exact rfl
      · exact rfl
      · exact rfl
      · exact (by decide : ⟨7, 3, 0, 2, 0⟩ ∈ unknownSelectorFields)
    · obtain rfl | rfl | rfl | rfl := two_bits_cases wsel
      · exact (by decide : ⟨7, 0, 0, 3, 0⟩ ∈ unknownSelectorFields)
      · exact rfl
      · exact rfl
      · exact (by decide : ⟨7, 3, 0, 3, 0⟩ ∈ unknownSelectorFields)

/-- The decoder gives the prescribed answer: the checks of R101, in their order. -/
theorem answers_decodeFields (f : Fields) : Answers f (decodeFields f) := by
  obtain ⟨opc, wsel, sgn, kind, rsvd⟩ := f
  by_cases hr : rsvd ≠ 0
  · rw [decodeFields, if_pos hr]
    exact .inl hr
  · obtain rfl : rsvd = 0 := not_not.mp hr
    rw [decodeFields, if_neg hr]
    split
    next ho =>
      obtain rfl : opc = 1 := BitVec.eq_of_toNat_eq ho
      exact answers_decodePlain wsel sgn kind rfl (by decide)
    next ho =>
      obtain rfl : opc = 2 := BitVec.eq_of_toNat_eq ho
      exact answers_decodePlain wsel sgn kind rfl (by decide)
    next ho =>
      obtain rfl : opc = 3 := BitVec.eq_of_toNat_eq ho
      exact answers_decodePlain wsel sgn kind rfl (by decide)
    next ho =>
      obtain rfl : opc = 4 := BitVec.eq_of_toNat_eq ho
      exact answers_decodePlain wsel sgn kind rfl (by decide)
    next ho =>
      obtain rfl : opc = 5 := BitVec.eq_of_toNat_eq ho
      exact answers_decodeInt wsel sgn kind
    next ho =>
      obtain rfl : opc = 6 := BitVec.eq_of_toNat_eq ho
      exact answers_decodeFloat wsel sgn kind
    next ho =>
      obtain rfl : opc = 7 := BitVec.eq_of_toNat_eq ho
      exact answers_decodePlan wsel sgn kind
    next h1 h2 h3 h4 h5 h6 h7 =>
      simp only [imp_false] at h1 h2 h3 h4 h5 h6 h7
      by_cases h0 : opc = 0
      · exact .inr (.inl h0)
      · have hne : opc.toNat ≠ 0 := fun h => h0 (BitVec.eq_of_toNat_eq h)
        have hge : 8 ≤ opc.toNat := by omega
        exact .inr (.inr (.inl hge))

/-! ### Each word has one answer -/

@[simp] theorem decodeFields_instrFields (i : Instr) : decodeFields (instrFields i) = .ok i := by
  cases i <;> rfl

theorem decodeFields_unknownSelector : ∀ f ∈ unknownSelectorFields, decodeFields f = .error .invalidFormat := by
  decide

theorem not_illegalFields_instrFields (i : Instr) : ¬ IllegalFields (instrFields i) := by
  unfold IllegalFields
  cases i <;> decide

theorem not_illegalFields_unknownSelector : ∀ f ∈ unknownSelectorFields, ¬ IllegalFields f := by
  unfold IllegalFields
  decide

theorem decodeFields_illegal (h : IllegalFields f) : decodeFields f = .error .illegalCommand := by
  have ha := answers_decodeFields f
  cases hr : decodeFields f with
  | ok i =>
    obtain rfl : f = instrFields i := by rwa [hr] at ha
    exact absurd h (not_illegalFields_instrFields i)
  | error e =>
    cases e with
    | illegalCommand => rfl
    | invalidFormat =>
      have hmem : f ∈ unknownSelectorFields := by rwa [hr] at ha
      exact absurd h (not_illegalFields_unknownSelector f hmem)

/-- The three answers exclude each other, so the prescribed one is the decoder's. -/
theorem decodeFields_eq_iff : decodeFields f = r ↔ Answers f r := by
  refine ⟨fun h => h ▸ answers_decodeFields f, fun h => ?_⟩
  match r, h with
  | .ok i, h => exact (congrArg decodeFields h).trans (decodeFields_instrFields i)
  | .error .illegalCommand, h => exact decodeFields_illegal h
  | .error .invalidFormat, h => exact decodeFields_unknownSelector f h

end

section

variable {w : Word} {f : Fields} {i : Instr}

theorem decode_ok_iff : decode w = .ok i ↔ encode i = w := decodeFields_eq_iff.trans fieldsOf_eq_iff

theorem decode_illegalCommand_iff : decode w = .error .illegalCommand ↔ IllegalFields (fieldsOf w) :=
  decodeFields_eq_iff

theorem decode_invalidFormat_iff : decode w = .error .invalidFormat ↔ fieldsOf w ∈ unknownSelectorFields :=
  decodeFields_eq_iff

theorem execute_illegalCommand (h : decode w = .error .illegalCommand) (s : State) :
    execute w s = .next { s with status := .illegalCommand } := by
  unfold execute
  rw [h]
  exact raise_eq ..

theorem execute_invalidFormat (h : decode w = .error .invalidFormat) (s : State) :
    execute w s = .next { s with status := .invalidFormat } := by
  unfold execute
  rw [h]
  exact raise_eq ..

/-! ### The rows of R105 and the words of R106 -/

/-- R105: one row per command, in the order of the table. -/
theorem acceptedRows_eq : acceptedRows =
    ([Instr.crc16, .buildReq, .validate] ++ decodeCommands ++ planCommands).map
      fun i => (encode i, i, instrFields i) := by
  decide

theorem mem_acceptedRows : (w, i, f) ∈ acceptedRows ↔ encode i = w ∧ instrFields i = f := by
  have hall : i ∈ [Instr.crc16, .buildReq, .validate] ++ decodeCommands ++ planCommands := by cases i <;> decide
  rw [acceptedRows_eq, List.mem_map]
  constructor
  · rintro ⟨j, -, hj⟩
    cases hj
    exact ⟨rfl, rfl⟩
  · rintro ⟨rfl, rfl⟩
    exact ⟨i, hall, rfl⟩

theorem unknownSelectorFields_eq : unknownSelectorFields =
    ([0x00000035, 0x00000075, 0x00000006, 0x00000036, 0x00000137, 0x00000187, 0x000001B7] : List Word).map
      fieldsOf := by
  decide

end

/-- Settles O2: the rows are the encodings of the 19 commands, and the decoder answers an encoding with its command. -/
theorem acceptedWordsExactly : Obligations.AcceptedWordsExactly := by
  refine ⟨fun w i => ?_, fun ⟨w, i, f⟩ hrow => ?_, fun w hw => ?_⟩
  · simp [decode_ok_iff, mem_acceptedRows]
  · obtain ⟨rfl, rfl⟩ := mem_acceptedRows.mp hrow
    exact fieldsOf_wordOf _
  · cases hd : decode w with
    | ok i => exact absurd rfl (hw _ (mem_acceptedRows.mpr ⟨decode_ok_iff.mp hd, rfl⟩))
    | error e =>
      cases e with
      | illegalCommand => exact .inl (execute_illegalCommand hd)
      | invalidFormat => exact .inr (execute_invalidFormat hd)

/-- Settles O5: the seven words are those of the seven field tuples with an unrecognised selector. -/
theorem invalidFormatWords : Obligations.InvalidFormatWords := by
  refine fun w => ⟨?_, execute_invalidFormat⟩
  have hinj : Function.Injective fieldsOf := Function.LeftInverse.injective wordOf_fieldsOf
  rw [decode_invalidFormat_iff, unknownSelectorFields_eq, List.mem_map_of_injective hinj]

/-- Settles O6: the decoder's IllegalCommand branches are those of R107. -/
theorem illegalCommandWords : Obligations.IllegalCommandWords :=
  fun _ => ⟨decode_illegalCommand_iff, execute_illegalCommand⟩

end Sys2Proof.Proofs

/-! PROOFS. The family 40_crc: the CRC of the empty input (R132) and the CRC16 command (R133). -/

namespace Sys2Proof.Proofs

open Machine Laws

/-! ### The words of the commands without a selector (R101, operations 1 to 4) -/

section

variable {w : Word} {i : Instr} {opc : BitVec 4}

theorem decode_ok_iff_eq_encode : decode w = .ok i ↔ w = encode i := decode_ok_iff.trans eq_comm

/-- R107: the fields of an operation that uses none but OPC are illegal unless they are its command's. -/
theorem illegalFields_of_ne_instrFields {f : Fields} (hi : instrFields i = ⟨f.opc, 0, 0, 0, 0⟩)
    (hopc : 1 ≤ f.opc.toNat ∧ f.opc.toNat ≤ 4) (hne : f ≠ instrFields i) : IllegalFields f := by
  obtain ⟨opc, wsel, sgn, kind, rsvd⟩ := f
  by_cases hr : rsvd ≠ 0
  · exact .inl hr
  · obtain rfl : rsvd = 0 := not_not.mp hr
    refine .inr (.inr (.inr (.inl ⟨hopc, ?_⟩)))
    by_contra! hclear
    obtain ⟨rfl, rfl, rfl⟩ := hclear
    exact hne hi.symm

theorem execute_of_ne_encode (hi : instrFields i = ⟨opc, 0, 0, 0, 0⟩) (hrange : 1 ≤ opc.toNat ∧ opc.toNat ≤ 4)
    (hopc : (fieldsOf w).opc = opc) (hne : w ≠ encode i) (s : State) :
    execute w s = .next { s with status := .illegalCommand } := by
  subst hopc
  have hf : fieldsOf w ≠ instrFields i := fun h => hne (fieldsOf_eq_iff.mp h).symm
  exact execute_illegalCommand (decode_illegalCommand_iff.mpr (illegalFields_of_ne_instrFields hi hrange hf)) s

end

/-! ### The wire bytes of a CRC value (R131) -/

theorem loByte_eq_setWidth (v : Half) : loByte v = v.setWidth 8 := (BitVec.setWidth_eq_extractLsb' (by decide)).symm

theorem hiByte_eq_setWidth_shift (v : Half) : hiByte v = (v >>> 8).setWidth 8 :=
  BitVec.setWidth_ushiftRight_eq_extractLsb.symm

/-- R51, R131: OBUF after its two bytes are those of a CRC value. -/
theorem ofList_crcWire (c : Half) :
    Memory.ofList (crcWire c) = [(0, c.setWidth 8), (1, (c >>> 8).setWidth 8)] := by
  rw [← loByte_eq_setWidth, ← hiByte_eq_setWidth_shift]
  rfl

/-! ### What CRC16 does (R133) -/

section

variable {s : State}

theorem execCrc16_out (h : s.params.size < s.ibufLen.toNat) : execCrc16 s = raise .bufferBounds s :=
  withLength_out h

theorem execCrc16_unwritten {k : Nat} (hl : LengthInBounds s) (h : FirstUnwritten s.ibuf 0 s.ibufLen.toNat k) :
    execCrc16 s = .fault (.unwritten (.ibuf k)) :=
  (withLength_in hl).trans (withBytes_unwritten h)

theorem execCrc16_holds {f : List Byte} (h : InputHolds s f) :
    execCrc16 s = finish (s.putObuf (crcBytes f) (crc16 f)) := by
  obtain ⟨hl, hlen, hf⟩ := h
  exact (withLength_in hl).trans (withBytes_holds hlen hf)

end

/-- Settles O19: no byte leaves the register at its initial value. -/
theorem crcOfEmpty : Obligations.CrcOfEmpty := by
  have hcrc : crc16 [] = 0xFFFF := rfl
  have hwire : crcWire 0xFFFF = [0xFF, 0xFF] := by decide
  exact ⟨hcrc, (congrArg crcWire hcrc).trans hwire⟩

/-- Settles O23: OPC 1 has the one word of R105, and the three outcomes are those of the length check, the read and the
result. -/
theorem crc16Command : Obligations.Crc16Command := by
  have hword : encode .crc16 = 0x00000001 := by decide
  refine ⟨fun w => ?word, fun w s hopc hne => ?otherWord, fun s => execCrc16_out, fun s k => execCrc16_unwritten,
    fun s f hf => ?result⟩
  case word => exact hword ▸ decode_ok_iff_eq_encode
  case otherWord => exact execute_of_ne_encode (i := .crc16) rfl (by decide) hopc (hword ▸ hne) s
  case result =>
    rw [← ofList_crcWire]
    exact execCrc16_holds hf

end Sys2Proof.Proofs

/-! PROOFS. The family 41_encoder: the BUILD_REQ command (R152, R153, R157). -/

namespace Sys2Proof.Proofs

open Machine Laws

/-! ### The bytes of a 16-bit value on numbers (R17) -/

theorem loByte_eq_ofNat (v : Half) : loByte v = BitVec.ofNat 8 (v.toNat % 256) := by
  apply BitVec.eq_of_toNat_eq
  simp [loByte]

theorem hiByte_eq_ofNat (v : Half) : hiByte v = BitVec.ofNat 8 (v.toNat / 256) := by
  apply BitVec.eq_of_toNat_eq
  simp [hiByte, Nat.shiftRight_eq_div_pow]

theorem crcWire_eq_ofNat (c : Half) :
    crcWire c = [BitVec.ofNat 8 (c.toNat % 256), BitVec.ofNat 8 (c.toNat / 256)] := by
  rw [crcWire, loByte_eq_ofNat, hiByte_eq_ofNat]

/-- R153: a word within the 16-bit range keeps its value as a frame field. -/
theorem be16_setWidth {v : Word} (hv : v.toNat ≤ 0xFFFF) :
    be16 (v.setWidth 16) = [BitVec.ofNat 8 (v.toNat / 256), BitVec.ofNat 8 (v.toNat % 256)] := by
  have hkeep : (v.setWidth 16).toNat = v.toNat := by
    rw [BitVec.toNat_setWidth, Nat.mod_eq_of_lt (by omega)]
  rw [be16, hiByte_eq_ofNat, loByte_eq_ofNat, hkeep]

/-- R150: the body of the frame of operands in the 16-bit range, byte by byte. -/
theorem requestBody_setWidth (addr : Word) (fn : Byte) {start qty : Word} (hs : start.toNat ≤ 0xFFFF)
    (hq : qty.toNat ≤ 0xFFFF) :
    requestBody (addr.setWidth 8) fn (start.setWidth 16) (qty.setWidth 16) =
      [ BitVec.ofNat 8 addr.toNat, fn
      , BitVec.ofNat 8 (start.toNat / 256), BitVec.ofNat 8 (start.toNat % 256)
      , BitVec.ofNat 8 (qty.toNat / 256), BitVec.ofNat 8 (qty.toNat % 256) ] := by
  rw [requestBody, be16_setWidth hs, be16_setWidth hq, BitVec.ofNat_toNat]
  rfl

/-! ### What BUILD_REQ does (R152) -/

section

variable {s : State}

theorem execBuildReq_badAddress (h : s.devAddr.toInt < 0 ∨ 255 < s.devAddr.toInt) :
    execBuildReq s = raise .invalidAddress s := if_pos h

theorem execBuildReq_badField (h0 : 0 ≤ s.devAddr.toInt) (h255 : s.devAddr.toInt ≤ 255)
    (h : 0xFFFF < s.start.toNat ∨ 0xFFFF < s.qty.toNat) : execBuildReq s = raise .fieldRange s := by
  rw [execBuildReq, if_neg (by omega), if_pos h]

theorem execBuildReq_inRange (h0 : 0 ≤ s.devAddr.toInt) (h255 : s.devAddr.toInt ≤ 255)
    (hs : s.start.toNat ≤ 0xFFFF) (hq : s.qty.toNat ≤ 0xFFFF) :
    execBuildReq s = finish (s.putObuf
      (requestFrame (s.devAddr.setWidth 8) s.func (s.start.setWidth 16) (s.qty.setWidth 16))
      (crc16 (requestBody (s.devAddr.setWidth 8) s.func (s.start.setWidth 16) (s.qty.setWidth 16)))) := by
  rw [execBuildReq, if_neg (by omega), if_neg (by omega)]

end

/-- Settles O24: OPC 2 has the one word of R105, the two checks come in the order of R157, and they keep the operands
within the widths of the frame's fields. -/
theorem buildReqCommand : Obligations.BuildReqCommand := by
  have hword : encode .buildReq = 0x00000002 := by decide
  refine ⟨fun w => ?word, fun w s hopc hne => ?otherWord, fun s => execBuildReq_badAddress,
    fun s => execBuildReq_badField, fun s h0 h255 hs hq => ?result⟩
  case word => exact hword ▸ decode_ok_iff_eq_encode
  case otherWord => exact execute_of_ne_encode (i := .buildReq) rfl (by decide) hopc (hword ▸ hne) s
  case result =>
    dsimp only
    rw [← crcWire_eq_ofNat, ← requestBody_setWidth s.devAddr s.func hs hq]
    exact execBuildReq_inRange h0 h255 hs hq

end Sys2Proof.Proofs

/-! PROOFS. The family 42_validator: the VALIDATE command (R172 to R177). -/

namespace Sys2Proof.Proofs

open Machine Laws

/-! ### What VALIDATE does (R172) -/

section

variable {s : State} {f : List Byte}

/-- R174: the CRC check on the frame itself. -/
theorem crcAgrees_eq_true_iff :
    crcAgrees f = true ↔ crcBytes (f.take (f.length - 2)) = f.drop (f.length - 2) := beq_iff_eq

theorem execValidate_out (h : s.params.size < s.ibufLen.toNat) : execValidate s = raise .bufferBounds s :=
  withLength_out h

theorem execValidate_empty (h : s.ibufLen = 0) : execValidate s = raise .noResponse s := by
  have hzero : s.ibufLen.toNat = 0 := congrArg BitVec.toNat h
  have hl : LengthInBounds s := hzero.trans_le (Nat.zero_le _)
  exact (withLength_in hl).trans (if_pos hzero)

theorem execValidate_unwritten {k : Nat} (hl : LengthInBounds s) (h : FirstUnwritten s.ibuf 0 s.ibufLen.toNat k) :
    execValidate s = .fault (.unwritten (.ibuf k)) := by
  have hpos : s.ibufLen.toNat ≠ 0 := by
    obtain ⟨-, hk, -⟩ := h
    omega
  exact (withLength_in hl).trans ((if_neg hpos).trans (withBytes_unwritten h))

/-- R174 to R177: the checks of a response that is there, in their order. -/
theorem execValidate_holds (h : InputHolds s f) (hpos : f.length ≠ 0) :
    execValidate s =
      if f.length = 1 then raise .crcMismatch s
      else if crcAgrees f = false then raise .crcMismatch s
      else if f[1]? ≠ some s.func then raise .unexpectedFunction s
      else finish { s with poff := 3, plen := BitVec.ofNat 16 (f.length - 5) } := by
  obtain ⟨hl, hlen, hf⟩ := h
  rw [hlen] at hpos ⊢
  exact (withLength_in hl).trans ((if_neg hpos).trans (withBytes_holds hlen hf))

theorem execValidate_singleByte (h : InputHolds s f) (h1 : f.length = 1) :
    execValidate s = raise .crcMismatch s := by
  rw [execValidate_holds h (by omega), if_pos h1]

theorem execValidate_crcMismatch (h : InputHolds s f) (h2 : 2 ≤ f.length)
    (hcrc : crcBytes (f.take (f.length - 2)) ≠ f.drop (f.length - 2)) :
    execValidate s = raise .crcMismatch s := by
  have hbad : crcAgrees f = false := Bool.eq_false_iff.mpr (mt crcAgrees_eq_true_iff.mp hcrc)
  rw [execValidate_holds h (by omega), if_neg (by omega), if_pos hbad]

/-- R175, R176: once the CRC agrees, the function byte decides. -/
theorem execValidate_crcAgrees (h : InputHolds s f) (h2 : 2 ≤ f.length)
    (hcrc : crcBytes (f.take (f.length - 2)) = f.drop (f.length - 2)) :
    execValidate s =
      if f[1]? ≠ some s.func then raise .unexpectedFunction s
      else finish { s with poff := 3, plen := BitVec.ofNat 16 (f.length - 5) } := by
  have hgood : ¬ crcAgrees f = false := by simpa using crcAgrees_eq_true_iff.mpr hcrc
  rw [execValidate_holds h (by omega), if_neg (by omega), if_neg hgood]

end

/-- Settles O27: OPC 3 has the one word of R105; the length check, the read and the checks of the bytes come in the
order of R177, and a frame that passes them gets the payload window. -/
theorem validateCommand : Obligations.ValidateCommand := by
  have hword : encode .validate = 0x00000003 := by decide
  refine ⟨fun w => ?word, fun w s hopc hne => ?otherWord, fun s => execValidate_out, fun s => execValidate_empty,
    fun s k => execValidate_unwritten, fun s f => execValidate_singleByte, fun s f => execValidate_crcMismatch,
    fun s f hf h2 hcrc hfn => ?otherFunction, fun s f hf h2 hcrc hfn => ?window⟩
  case word => exact hword ▸ decode_ok_iff_eq_encode
  case otherWord => exact execute_of_ne_encode (i := .validate) rfl (by decide) hopc (hword ▸ hne) s
  case otherFunction => exact (execValidate_crcAgrees hf h2 hcrc).trans (if_pos hfn)
  case window => exact (execValidate_crcAgrees hf h2 hcrc).trans (if_neg (not_not.mpr hfn))

end Sys2Proof.Proofs

/-! PROOFS. The family 43_decoder: the checks of DECODE_INT and DECODE_FLOAT (R208) and both modes of DECODE_BITS
(R192, R193). -/

namespace Sys2Proof.Proofs

open Machine Laws

/-! ### The big-endian value of a payload (R17) -/

/-- R17: the value the machine accumulates byte by byte is the sum the statements use. -/
theorem be_eq_bigEndian (bs : List Byte) : be bs = bigEndian bs := by
  induction bs with
  | nil => rfl
  | cons b bs ih =>
    calc be (b :: bs) = be [b] * 256 ^ bs.length + be bs := be_append [b] bs
      _ = bigEndian (b :: bs) := by simp [be, bigEndian, ← ih]

/-! ### The digits of a payload (R192) -/

@[simp] theorem digitsValue_nil : digitsValue [] = 0 := rfl

theorem digitsValue_append_singleton (ds : List Bool) (d : Bool) :
    digitsValue (ds ++ [d]) = digitsValue ds * 2 + d.toNat := by
  simp [digitsValue]

/-- The low k bits of v, most significant first, have the value of v below 2^k. -/
theorem digitsValue_testBits (k v : Nat) :
    digitsValue ((List.range k).map fun j => v.testBit (k - 1 - j)) = v % 2 ^ k := by
  induction k generalizing v with
  | zero => simp [Nat.mod_one]
  | succ k ih =>
    have hhigh : ((List.range k).map fun j => v.testBit (k - j)) =
        (List.range k).map fun j => (v / 2).testBit (k - 1 - j) := by
      refine List.map_congr_left fun j hj => ?_
      have hjk : k - j = k - 1 - j + 1 := by
        have := List.mem_range.mp hj
        omega
      rw [hjk, Nat.testBit_succ]
    have hlow : (decide (v % 2 = 1)).toNat = v % 2 := by
      rw [← Nat.testBit_zero, Nat.toNat_testBit, Nat.pow_zero, Nat.div_one]
    calc digitsValue ((List.range (k + 1)).map fun j => v.testBit (k - j))
        = digitsValue ((List.range k).map fun j => (v / 2).testBit (k - 1 - j)) * 2 + v % 2 := by
          simp [List.range_succ, hhigh, digitsValue_append_singleton, hlow]
      _ = v / 2 % 2 ^ k * 2 + v % 2 := by rw [ih]
      _ = v % 2 ^ (k + 1) := by rw [Nat.pow_succ', Nat.mod_mul, Nat.add_comm, Nat.mul_comm]

section

variable {p : List Byte}

theorem digits_of_be_eq_zero (h : be p = 0) : digits p = [false] := if_pos h

theorem digits_of_be_ne_zero (h : be p ≠ 0) :
    digits p = (List.range (bitLength (be p))).map fun j => (be p).testBit (bitLength (be p) - 1 - j) := if_neg h

/-- R192: `digits` is the expansion of the payload's value: the digits end at bit `bitLength - 1`, the highest set. -/
theorem digits_isExpansion (p : List Byte) : IsExpansion (bigEndian p) (digits p) := by
  rw [← be_eq_bigEndian]
  by_cases h : be p = 0
  · rw [h, digits_of_be_eq_zero h]
    exact ⟨rfl, fun _ => rfl, fun hne => absurd rfl hne⟩
  · rw [digits_of_be_ne_zero h]
    refine ⟨?value, fun h0 => absurd h0 h, fun _ => ?leading⟩
    case value => rw [digitsValue_testBits, bitLength, Nat.mod_eq_of_lt Nat.lt_log2_self]
    case leading => simp [bitLength, List.range_succ_eq_map, Nat.testBit_log2 h]

theorem bitLength_be_le (h : be p ≠ 0) : bitLength (be p) ≤ 8 * p.length := by
  have hlt : be p < 2 ^ (8 * p.length) := by simpa [Nat.pow_mul] using be_lt p
  exact (Nat.log2_lt h).mpr hlt

/-- R192: no more digits than the payload has bits, but at least the one digit of zero. -/
theorem digits_length_le (p : List Byte) : (digits p).length ≤ max 1 (8 * p.length) := by
  by_cases h : be p = 0
  · simp [digits_of_be_eq_zero h]
  · simp [digits_of_be_ne_zero h, bitLength_be_le h]

end

/-! ### What the commands do (R191, R201, R208, R210) -/

section

variable {s : State} {p : List Byte} {W : Nat} {sgn : Bool}

/-- R52: the state after a decode whose number of values is the word `c`. -/
theorem finish_putValues {vs : List Value} {c : Word} (hc : BitVec.ofNat 32 vs.length = c) (s : State) :
    finish (s.putValues vs) = .next { s with values := Memory.ofList vs, vcount := c, status := .ok } := by
  subst hc
  rfl

theorem execDecodeBits_asObserved (hm : s.params.bitMode = .asObserved) (h : WindowHolds s p) :
    execDecodeBits s = finish (s.putValues ((digits p).map bitValue)) := by
  obtain ⟨hw, hl, hp⟩ := h
  rw [execDecodeBits, withWindow_in hw, hm]
  exact withBytes_holds hl hp

theorem execDecodeBits_padded (hm : s.params.bitMode = .padded) (hc : s.count.toNat ≤ s.params.vcap)
    (h : WindowHolds s p) : execDecodeBits s = finish (s.putValues ((padded p s.count.toNat).map bitValue)) := by
  obtain ⟨hw, hl, hp⟩ := h
  rw [execDecodeBits, withWindow_in hw, hm]
  exact (if_neg (Nat.not_lt.mpr hc)).trans (withBytes_holds hl hp)

theorem decodeChunks_out (h : ¬ WindowInBounds s) : decodeChunks W sgn s = raise .bufferBounds s := withWindow_out h

theorem decodeChunks_payloadLength (hw : WindowInBounds s) (hl : s.plen.toNat ≠ s.count.toNat * W) :
    decodeChunks W sgn s = raise .payloadLength s :=
  (withWindow_in hw).trans (if_pos hl)

theorem decodeChunks_unwritten {k : Nat} (hw : WindowInBounds s) (hl : s.plen.toNat = s.count.toNat * W)
    (h : FirstUnwritten s.ibuf s.poff.toNat s.plen.toNat k) :
    decodeChunks W sgn s = .fault (.unwritten (.ibuf k)) :=
  (withWindow_in hw).trans ((if_neg (not_not.mpr hl)).trans (withBytes_unwritten h))

end

/-- R202 to R207, R211, R212: every integer and float decode is the shared body at its width. -/
theorem exec_chunkCommands : ∀ c ∈ chunkCommands, ∃ sgn, ∀ s, exec c.1 s = decodeChunks c.2 sgn s := by
  have unsigned {i : Instr} {W : Nat} (h : ∀ s, exec i s = decodeChunks W false s) :
      ∃ sgn, ∀ s, exec i s = decodeChunks W sgn s := ⟨false, h⟩
  have signed {i : Instr} {W : Nat} (h : ∀ s, exec i s = decodeChunks W true s) :
      ∃ sgn, ∀ s, exec i s = decodeChunks W sgn s := ⟨true, h⟩
  simp only [chunkCommands, List.forall_mem_cons]
  exact ⟨unsigned fun _ => rfl, signed fun _ => rfl, unsigned fun _ => rfl, signed fun _ => rfl,
    unsigned fun _ => rfl, signed fun _ => rfl, unsigned fun _ => rfl, unsigned fun _ => rfl, List.forall_mem_nil _⟩

/-- Settles O33: the window check, the length check and the read of the shared body come in the order of R208. -/
theorem decodeChunkRejects : Obligations.DecodeChunkRejects := by
  intro s i W hi
  obtain ⟨sgn, hexec⟩ := exec_chunkCommands (i, W) hi
  rw [hexec]
  exact ⟨decodeChunks_out, decodeChunks_payloadLength, fun k => decodeChunks_unwritten⟩

/-- Settles O35: the digits DECODE_BITS writes are the expansion of R192, no longer than the payload's bits. -/
theorem decodeBitsAsObserved : Obligations.DecodeBitsAsObserved := by
  intro s p hm hp
  have hcount : BitVec.ofNat 32 ((digits p).map bitValue).length = BitVec.ofNat 32 (digits p).length := by
    rw [List.length_map]
  exact ⟨digits p, (execDecodeBits_asObserved hm hp).trans (finish_putValues hcount s), digits_isExpansion p,
    digits_length_le p⟩

/-- Settles O36: the expansion of R192, padded and cut as R193 says, always has COUNT digits. -/
theorem decodeBitsPadded : Obligations.DecodeBitsPadded := by
  intro s p hm hc hp
  have hcount : BitVec.ofNat 32 ((padded p s.count.toNat).map bitValue).length = s.count := by
    rw [List.length_map, padded_length, BitVec.ofNat_toNat, BitVec.setWidth_eq]
  exact ⟨digits p, padded p s.count.toNat, (execDecodeBits_padded hm hc hp).trans (finish_putValues hcount s),
    digits_isExpansion p, padded_length p _, rfl⟩

end Sys2Proof.Proofs

/-! PROOFS. The family 44_framer: the PLAN commands complete or refuse a register count past 16 bits (R230 to R238). -/

namespace Sys2Proof.Proofs

open Machine Laws

section

variable {s : State} {fn : Byte} {rpv : Nat}

/-- R238: a register count past the 16-bit range is refused. -/
theorem plan_fieldRange (h : 0xFFFF < s.count.toNat * rpv) :
    plan fn rpv s = .next { s with status := .fieldRange } := if_pos h

/-- A register count of 16 bits loses nothing in the 32 bits of QTY. -/
theorem toNat_ofNat_registers {q : Nat} (h : q ≤ 0xFFFF) : (BitVec.ofNat 32 q).toNat = q := by
  rw [BitVec.toNat_ofNat]
  omega

/-- R232: the expected length of a register count of 16 bits loses nothing in the 32 bits of EXPLEN. -/
theorem toNat_ofNat_expectedLength {q : Nat} (h : q ≤ 0xFFFF) :
    (BitVec.ofNat 32 (expectedLength q)).toNat = q * 2 + 5 := by
  rw [BitVec.toNat_ofNat, expectedLength]
  omega

end

/-- R234 to R237: every PLAN command is the shared body of R233 at its function code and registers per value. -/
theorem exec_planRows : ∀ r ∈ planRows, ∀ s, exec r.1 s = plan r.2.1 r.2.2 s := by
  simp only [planRows, List.forall_mem_cons]
  exact ⟨fun _ => rfl, fun _ => rfl, fun _ => rfl, fun _ => rfl, fun _ => rfl, fun _ => rfl, fun _ => rfl,
    List.forall_mem_nil _⟩

/-- Settles O38: the shared body of R233 checks the 16-bit range before it writes, and a count within that range fits
QTY and EXPLEN. -/
theorem planCommand : Obligations.PlanCommand := by
  intro s i fn rpv hi
  rw [exec_planRows (i, fn, rpv) hi s]
  exact ⟨fun h => ⟨_, plan_fits h, rfl, toNat_ofNat_registers h, toNat_ofNat_expectedLength h, rfl⟩, plan_fieldRange⟩

end Sys2Proof.Proofs

/-! PROOFS. The family 60_exceptions: a command that does not end with OK writes STATUS and nothing else (R282). -/

namespace Sys2Proof.Proofs

open Machine Laws

section

variable {s t : State}

/-- R282 for the commands: every effect but a failure ends with OK. -/
theorem exec_failed {i : Instr} (h : exec i s = .next t) (hok : t.status ≠ .ok) : t = { s with status := t.status } := by
  cases exec_effect h with
  | failed _ c _ _ ht => subst ht; rfl
  | frame _ _ _ _ ht | window _ ht | values _ _ _ ht | plan _ _ _ _ _ ht => exact absurd (congrArg State.status ht) hok

/-- R282 for every word: a rejected word writes STATUS only, as a failing command does. -/
theorem execute_failed {w : Word} (h : execute w s = .next t) (hok : t.status ≠ .ok) :
    t = { s with status := t.status } := by
  unfold execute at h
  split at h
  · cases raise_next h; rfl
  · cases raise_next h; rfl
  · exact exec_failed h hok

end

/-- Settles O11: a CMD write stores its word and executes it. -/
theorem failureWritesStatusOnly : Obligations.FailureWritesStatusOnly :=
  ⟨fun _ _ _ => execute_failed, fun w s _ h => execute_failed ((memWrite_cmd s w).symm.trans h)⟩

end Sys2Proof.Proofs

/-! PROOFS. The family other, 30_encoding: decoder and encoder agree (R100, R105), and the decoder accepts the words
of the field-use table (R102). -/

namespace Sys2Proof.Proofs

open Machine Laws

/-- Settles O3: the fields cover the word, and the decoder answers exactly the encodings of R105. -/
theorem decodeEncodeAgree : Obligations.DecodeEncodeAgree :=
  ⟨fun _ => decode_ok_iff.mpr rfl, fun _ _ => decode_ok_iff.mp, fieldsOf_wordOf, wordOf_fieldsOf⟩

/-! ### The field-use table (R102) -/

section

variable {f : Fields}

theorem wellFormed_instrFields (i : Instr) : (instrFields i).wellFormed = true := by cases i <;> decide

/-- R106: an unrecognised selector is what the last check of the table refuses. -/
theorem not_selectorKnown_of_mem_unknownSelectorFields : ∀ f ∈ unknownSelectorFields, ¬ f.selectorKnown = true := by
  decide

theorem plain_opcode_cases :
    ∀ opc : BitVec 4, 1 ≤ opc.toNat ∧ opc.toNat ≤ 4 → opc = 1 ∨ opc = 2 ∨ opc = 3 ∨ opc = 4 := by
  decide

/-- R107: an illegal field is what the first three checks of the table refuse. -/
theorem not_legal_of_illegalFields (h : IllegalFields f) : ¬ f.legal = true := by
  obtain ⟨opc, wsel, sgn, kind, rsvd⟩ := f
  intro hlegal
  simp only [Fields.legal, Fields.rsvdClear, Fields.opcAssigned, Bool.and_eq_true, beq_iff_eq, decide_eq_true_eq]
    at hlegal
  obtain ⟨⟨hrsvd, hlow, hhigh⟩, hunused⟩ := hlegal
  obtain hr | h0 | h8 | ⟨hplain, hfield⟩ | ⟨h5, hkind⟩ | ⟨h6, hfield⟩ | ⟨h7, hfield⟩ := h
  · exact hr hrsvd
  · subst h0
    exact absurd hlow (by decide)
  · exact absurd (h8.trans hhigh) (by decide)
  · have hclear : (wsel = 0 ∧ sgn = 0) ∧ kind = 0 := by
      obtain rfl | rfl | rfl | rfl := plain_opcode_cases opc hplain <;> simpa [Fields.unusedClear] using hunused
    tauto
  · subst h5
    exact hkind (by simpa [Fields.unusedClear] using hunused)
  · subst h6
    have hclear : sgn = 0 ∧ kind = 0 := by simpa [Fields.unusedClear] using hunused
    tauto
  · subst h7
    obtain ⟨hsgn, hwsel⟩ : sgn = 0 ∧ (2 ≤ kind.toNat ∨ wsel = 0) := by simpa [Fields.unusedClear] using hunused
    obtain hs | ⟨hk, hw⟩ := hfield
    · exact hs hsgn
    · exact hw (hwsel.resolve_left (Nat.not_le.mpr hk))

end

/-- Settles O4: the three answers of the decoder are told apart by the four checks. -/
theorem acceptedIffWellFormed : Obligations.AcceptedIffWellFormed := by
  intro w
  constructor
  · rintro ⟨i, hi⟩
    rw [fieldsOf_eq_iff.mpr (decode_ok_iff.mp hi)]
    exact wellFormed_instrFields i
  · intro hwf
    obtain ⟨hlegal, hsel⟩ := Bool.and_eq_true_iff.mp hwf
    cases hd : decode w with
    | ok i => exact ⟨i, rfl⟩
    | error e =>
      cases e with
      | illegalCommand =>
        exact absurd hlegal (not_legal_of_illegalFields (decode_illegalCommand_iff.mp hd))
      | invalidFormat =>
        exact absurd hsel (not_selectorKnown_of_mem_unknownSelectorFields _ (decode_invalidFormat_iff.mp hd))

/-- Settles O1: nine words are encodings, one has an unrecognised selector, and two have an illegal field. -/
theorem knownWordsDecode : Obligations.KnownWordsDecode := by
  have accepted {i : Instr} {w : Word} (h : encode i = w) : decode w = .ok i := decode_ok_iff.mpr h
  exact ⟨accepted (by decide), accepted (by decide), accepted (by decide), accepted (by decide), accepted (by decide),
    accepted (by decide), accepted (by decide), accepted (by decide), accepted (by decide),
    decode_invalidFormat_iff.mpr (by decide),
    decode_illegalCommand_iff.mpr (by unfold IllegalFields; decide),
    decode_illegalCommand_iff.mpr (by unfold IllegalFields; decide)⟩

/-- R100, R109: a command word uses all its 32 bits. -/
theorem tableWord_of_lt {w : Nat} (h : w < 2 ^ 32) : tableWord 32 w = BitVec.ofNat 32 w := by
  rw [tableWord, Nat.mod_eq_of_lt h]

section

variable {s : State} {w : Word} {rest : List Move}

/-- R70, R77: a bus write reaches the element at its offset. -/
theorem step_busWrite {off v : Word} {n : Nat} (h : s.host.moves = .busWrite (busAddr s.params off) n v :: rest) :
    step s = memWrite (s.setMoves rest) off n v := by
  rw [step_cons h]
  simp only [runMove, setMoves_params, busOffset_busAddr]

/-- R32: a CMD write stores its word and executes it. -/
theorem step_cmdWrite (h : s.host.moves = .busWrite (busAddr s.params 0) 4 w :: rest) :
    step s = execute w { s with cmd := w, host := { s.host with moves := rest } } :=
  (step_busWrite h).trans (memWrite_cmd ..)

theorem execute_ok {i : Instr} (h : decode w = .ok i) (s : State) : execute w s = exec i s := by
  unfold execute
  rw [h]

end

/-- Settles O7: the offset of CMD is 0, and a CMD write of an accepted word runs its command. -/
theorem stepRunsDecodedCommand : Obligations.StepRunsDecodedCommand := by
  refine ⟨fun s w i rest hm hi => (step_cmdWrite hm).trans (execute_ok hi _), fun s w hw => ?_⟩
  simp only [State.withFetchWord, setMoves_host, tableWord_of_lt hw]
  rfl

end Sys2Proof.Proofs

/-! PROOFS. The family other, the invariant: safe at reset, and kept by every step (10_state, 44_framer R232). -/

namespace Sys2Proof.Proofs

open Machine Laws

/-! ### The invariant is one of the engine's results -/

section

variable {s t : State}

/-- R310, R61: nothing is written and every length is 0. -/
theorem safe_resetFor {p : Params} (hp : p.wf = true) : Safe (State.resetFor p) := by
  have hobuf : ObufAgrees (State.resetFor p) := ⟨.inl rfl, fun i => by simp, fun h => absurd rfl h⟩
  have hvalues : ValuesAgree (State.resetFor p) := ⟨Nat.zero_le _, fun e => by simp⟩
  exact ⟨⟨hp, rfl, rfl, rfl⟩, hobuf, hvalues, .inl rfl⟩

theorem safe_setHost (hs : Safe s) (h : HostSide) : Safe (s.setHost h) := hs

theorem safe_sameEngine (hs : Safe s) (h : SameEngine s t) : Safe t := by
  obtain ⟨host, rfl⟩ := h
  exact safe_setHost hs host

/-- R9: IBUF has at least 8 bytes. -/
theorem eight_le_size (hs : Safe s) : 8 ≤ s.params.size := by
  obtain ⟨⟨hwf, -⟩, -⟩ := hs
  exact of_decide_eq_true hwf

theorem safe_hwReset (hs : Safe s) : Safe s.hwReset := by
  obtain ⟨⟨hwf, -⟩, -⟩ := hs
  exact safe_setHost (safe_resetFor hwf) s.host

/-- A failure of a command writes STATUS, which the invariant does not speak of (R282). -/
theorem safe_status (hs : Safe s) (c : Status) : Safe { s with status := c } := hs

/-- The host writes no register that reports a result (R31). -/
theorem safe_writeReg (hs : Safe s) (r : Reg) (v : Word) : Safe (s.writeReg r v) := by
  cases r <;> exact hs

theorem safe_writeIbuf (hs : Safe s) {i : Nat} (b : Byte) (hi : i < s.params.size) : Safe (s.writeIbuf i b) := by
  obtain ⟨hcanon, hobuf, hvalues, hexplen⟩ := hs
  exact ⟨canonical_writeIbuf b hcanon hi, hobuf, hvalues, hexplen⟩

/-! ### The results a command writes -/

theorem isSome_getElem?_eq_decide {α : Type} (vs : List α) (i : Nat) : vs[i]?.isSome = decide (i < vs.length) :=
  Bool.eq_iff_iff.mpr (by simp)

/-- R51: a result in OBUF is two or eight bytes that end with the wire bytes of CRC. -/
theorem obufAgrees_putObuf (s : State) (c : Half) {body : List Byte} (hb : body.length = 0 ∨ body.length = 6) :
    ObufAgrees (s.putObuf (body ++ crcWire c) c) := by
  have hlen : (body ++ crcWire c).length = body.length + 2 := List.length_append
  have hread (i : Nat) : Memory.read (s.putObuf (body ++ crcWire c) c).obuf i = (body ++ crcWire c)[i]? :=
    memory_read_ofList ..
  have hobufLen : (s.putObuf (body ++ crcWire c) c).obufLen.toNat = body.length + 2 := by
    rw [putObuf_obufLen, hlen, BitVec.toNat_ofNat]
    omega
  refine ⟨?lengths, fun i => ?held, fun _ => ⟨?low, ?high⟩⟩
  case lengths =>
    rw [putObuf_obufLen, hlen]
    obtain hb | hb := hb <;> simp [hb]
  case held => rw [hread, hobufLen, ← hlen, isSome_getElem?_eq_decide]
  case low => rw [hread, hobufLen]; simp [crcWire]
  case high => rw [hread, hobufLen]; simp [crcWire]

theorem safe_putObuf (hs : Safe s) (c : Half) {body : List Byte} (hb : body.length = 0 ∨ body.length = 6) :
    Safe (s.putObuf (body ++ crcWire c) c) := by
  obtain ⟨hcanon, -, hvalues, hexplen⟩ := hs
  have hsize : (body ++ crcWire c).length ≤ obufSize := by
    rw [List.length_append, crcWire, obufSize]
    simp
    omega
  exact ⟨canonical_putObuf c hcanon hsize, obufAgrees_putObuf s c hb, hvalues, hexplen⟩

/-- R12: VCAP fits the 32 bits of VCOUNT. -/
theorem vcap_lt (p : Params) : p.vcap < 2 ^ 32 := by
  have hsize := size_le p
  rw [Params.vcap]
  omega

/-- R52: VCOUNT counts exactly the entries a decode has written. -/
theorem valuesAgree_putValues (s : State) {vs : List Value} (hv : vs.length ≤ s.params.vcap) :
    ValuesAgree (s.putValues vs) := by
  have hvcount : (s.putValues vs).vcount.toNat = vs.length :=
    (BitVec.toNat_ofNat ..).trans (Nat.mod_eq_of_lt (hv.trans_lt (vcap_lt _)))
  refine ⟨hvcount.trans_le hv, fun e => ?_⟩
  rw [hvcount, putValues_values, memory_read_ofList, isSome_getElem?_eq_decide]

theorem safe_putValues (hs : Safe s) {vs : List Value} (hv : vs.length ≤ s.params.vcap) : Safe (s.putValues vs) := by
  obtain ⟨hcanon, hobuf, -, hexplen⟩ := hs
  exact ⟨canonical_putValues hcanon hv, hobuf, valuesAgree_putValues s hv, hexplen⟩

/-! ### Every command keeps it -/

theorem safe_crc16 (hs : Safe s) (h : execCrc16 s = .next t) : Safe t := by
  obtain ⟨-, rfl⟩ | ⟨f, -, rfl⟩ := execCrc16_next h
  · exact safe_status hs _
  · exact safe_status (safe_putObuf hs (crc16 f) (body := []) (.inl rfl)) _

theorem safe_buildReq (hs : Safe s) (h : execBuildReq s = .next t) : Safe t := by
  obtain ⟨-, rfl⟩ | ⟨-, rfl⟩ | ⟨-, -, -, -, rfl⟩ := execBuildReq_next h
  · exact safe_status hs _
  · exact safe_status hs _
  · exact safe_status (safe_putObuf hs _ (.inr rfl)) _

theorem safe_validate (hs : Safe s) (h : execValidate s = .next t) : Safe t := by
  obtain ⟨c, -, rfl⟩ | rfl := execValidate_next h
  · exact safe_status hs c
  · exact hs

/-- R190: a window in bounds is no longer than IBUF. -/
theorem window_length_le_size {p : List Byte} (hp : WindowHolds s p) : p.length ≤ s.params.size := by
  obtain ⟨hw, hl, -⟩ := hp
  obtain h0 | hpos := Nat.eq_zero_or_pos s.plen.toNat
  · omega
  · have hend := window_end_le_size hw hpos
    omega

theorem safe_decodeBits (hs : Safe s) (h : execDecodeBits s = .next t) : Safe t := by
  obtain rfl | ⟨p, hp, -, rfl⟩ | ⟨p, -, -, hc, rfl⟩ := execDecodeBits_next h
  · exact safe_status hs _
  · have hmin := eight_le_size hs
    have hdigits := digits_length_le p
    have hsize := window_length_le_size hp
    have hvcap : ((digits p).map bitValue).length ≤ s.params.vcap := by
      rw [List.length_map, Params.vcap]
      omega
    exact safe_status (safe_putValues hs hvcap) _
  · have hvcap : ((padded p s.count.toNat).map bitValue).length ≤ s.params.vcap := by
      rwa [List.length_map, padded_length]
    exact safe_status (safe_putValues hs hvcap) _

/-- R201, R210: a window of COUNT chunks holds no more values than bytes. -/
theorem safe_decodeChunks {W : Nat} {sgn : Bool} (hW : 0 < W) (hs : Safe s) (h : decodeChunks W sgn s = .next t) :
    Safe t := by
  obtain ⟨-, rfl⟩ | ⟨-, rfl⟩ | ⟨p, hp, hl, rfl⟩ := decodeChunks_next h
  · exact safe_status hs _
  · exact safe_status hs _
  · have hcount : s.count.toNat ≤ s.plen.toNat := hl ▸ Nat.le_mul_of_pos_right _ hW
    have hsize := window_length_le_size hp
    obtain ⟨-, hlen, -⟩ := hp
    have hvcap : (chunkValues W sgn s.count.toNat p).length ≤ s.params.vcap := by
      rw [chunkValues_length, Params.vcap]
      omega
    exact safe_status (safe_putValues hs hvcap) _

/-- R232: EXPLEN is the expected length of the register count. -/
theorem safe_plan {fn : Byte} {rpv : Nat} (hs : Safe s) (h : plan fn rpv s = .next t) : Safe t := by
  obtain ⟨-, rfl⟩ | ⟨hq, rfl⟩ := plan_next h
  · exact safe_status hs _
  · obtain ⟨hcanon, hobuf, hvalues, -⟩ := hs
    exact ⟨hcanon, hobuf, hvalues, .inr ⟨_, hq, toNat_ofNat_expectedLength hq⟩⟩

theorem safe_exec {i : Instr} (hs : Safe s) (h : exec i s = .next t) : Safe t := by
  cases i with
  | crc16 => exact safe_crc16 hs h
  | buildReq => exact safe_buildReq hs h
  | validate => exact safe_validate hs h
  | decodeBits => exact safe_decodeBits hs h
  | decodeIntU16 | decodeIntS16 | decodeIntU32 | decodeIntS32 | decodeIntU64 | decodeIntS64
  | decodeFloatF32 | decodeFloatF64 => exact safe_decodeChunks (by decide) hs h
  | planCoils | planDiscrete | planInt16 | planInt32 | planInt64 | planFloat32 | planFloat64 =>
    exact safe_plan hs h

theorem safe_execute {w : Word} (hs : Safe s) (h : execute w s = .next t) : Safe t := by
  unfold execute at h
  split at h
  · cases raise_next h
    exact safe_status hs _
  · cases raise_next h
    exact safe_status hs _
  · exact safe_exec hs h

/-! ### Every step keeps it -/

theorem safe_memWrite {off v : Word} {n : Nat} (hs : Safe s) (h : memWrite s off n v = .next t) : Safe t := by
  obtain ⟨-, -, he⟩ | ⟨r, -, -, -, -, rfl⟩ | ⟨i, -, hi, -, rfl⟩ := memWrite_next h
  · exact safe_execute (safe_writeReg hs _ v) he
  · exact safe_writeReg hs r v
  · exact safe_writeIbuf hs _ hi

theorem safe_runMove {m : Move} (hs : Safe s) (h : runMove m s = .next t) : Safe t := by
  obtain ⟨addr, n, v, -, hw⟩ | ⟨-, rfl⟩ | he := runMove_next h
  · exact safe_memWrite hs hw
  · exact safe_hwReset hs
  · exact safe_sameEngine hs he

theorem safe_step (hs : Safe s) (h : step s = .next t) : Safe t := by
  cases hm : s.host.moves with
  | nil =>
    have hidle : step s = .next s := by simp only [step, hm]
    cases hidle.symm.trans h
    exact hs
  | cons m rest => exact safe_runMove (safe_setHost hs _) ((step_cons hm).symm.trans h)

end

/-- Settles O45: after reset no location holds a value and every length is 0. -/
theorem safeAtReset : Obligations.SafeAtReset := ⟨safe_resetFor (by decide), fun _ => safe_resetFor⟩

/-- Settles O46: of the moves only a bus write and the reset input touch the engine, and of the writes only a command
changes a result. -/
theorem stepKeepsSafe : Obligations.StepKeepsSafe := fun _ _ => safe_step

end Sys2Proof.Proofs

/-! PROOFS. The family other, every command: the statuses it can end with (R281, R293), its only fault (R294), that it
repeats identically (R85), and its frame. -/

namespace Sys2Proof.Proofs

open Machine Laws

/-! ### The status codes (R281) -/

theorem status_code_injective : Function.Injective Status.code := by
  intro a b h
  cases a <;> cases b <;> first | rfl | exact absurd h (by decide)

/-- Settles O9: the codes are those of the table, no two the same. -/
theorem statusCodes : Obligations.StatusCodes :=
  ⟨rfl, rfl, rfl, rfl, rfl, rfl, rfl, rfl, rfl, rfl, rfl, fun _ _ h => status_code_injective h⟩

/-! ### The statuses a command can end with (R281, R293) -/

section

variable {s t : State}

theorem execCrc16_status (h : execCrc16 s = .next t) : t.status ∈ [Status.ok, .bufferBounds] := by
  obtain ⟨-, rfl⟩ | ⟨f, -, rfl⟩ := execCrc16_next h <;> simp

theorem execBuildReq_status (h : execBuildReq s = .next t) : t.status ∈ [Status.ok, .invalidAddress, .fieldRange] := by
  obtain ⟨-, rfl⟩ | ⟨-, rfl⟩ | ⟨-, -, -, -, rfl⟩ := execBuildReq_next h <;> simp

theorem execValidate_status (h : execValidate s = .next t) :
    t.status ∈ [Status.ok, .bufferBounds, .noResponse, .crcMismatch, .unexpectedFunction] := by
  obtain ⟨c, hc, rfl⟩ | rfl := execValidate_next h
  · exact List.mem_cons_of_mem _ hc
  · exact List.mem_cons_self

theorem execDecodeBits_status (h : execDecodeBits s = .next t) : t.status ∈ [Status.ok, .bufferBounds] := by
  obtain rfl | ⟨p, -, -, rfl⟩ | ⟨p, -, -, -, rfl⟩ := execDecodeBits_next h <;> simp

theorem decodeChunks_status {W : Nat} {sgn : Bool} (h : decodeChunks W sgn s = .next t) :
    t.status ∈ [Status.ok, .bufferBounds, .payloadLength] := by
  obtain ⟨-, rfl⟩ | ⟨-, rfl⟩ | ⟨p, -, -, rfl⟩ := decodeChunks_next h <;> simp

theorem plan_status {fn : Byte} {rpv : Nat} (h : plan fn rpv s = .next t) : t.status ∈ [Status.ok, .fieldRange] := by
  obtain ⟨-, rfl⟩ | ⟨-, rfl⟩ := plan_next h <;> simp

/-- U10: IDLE is the reset value of STATUS and no command's answer. -/
theorem exec_status_ne_idle {i : Instr} (h : exec i s = .next t) : t.status ≠ .idle := by
  cases exec_effect h with
  | failed _ c _ hidle ht => exact ht ▸ hidle
  | frame _ _ _ _ ht | window _ ht | values _ _ _ ht | plan _ _ _ _ _ ht => simp [ht]

theorem execute_status_ne_idle {w : Word} (h : execute w s = .next t) : t.status ≠ .idle := by
  unfold execute at h
  split at h
  · simp [raise_next h]
  · simp [raise_next h]
  · exact exec_status_ne_idle h

end

/-- Settles O10: the statuses are those of the ends of each command's rule. -/
theorem statusesPerCommand : Obligations.StatusesPerCommand := by
  refine ⟨fun i s t h => ?_, fun w s t => execute_status_ne_idle⟩
  cases i with
  | crc16 => exact execCrc16_status h
  | buildReq => exact execBuildReq_status h
  | validate => exact execValidate_status h
  | decodeBits => exact execDecodeBits_status h
  | decodeIntU16 | decodeIntS16 | decodeIntU32 | decodeIntS32 | decodeIntU64 | decodeIntS64
  | decodeFloatF32 | decodeFloatF64 => exact decodeChunks_status h
  | planCoils | planDiscrete | planInt16 | planInt32 | planInt64 | planFloat32 | planFloat64 => exact plan_status h

/-- Settles O12: a command that does not complete has met an unwritten byte below IBUF_SIZE. -/
theorem commandsFaultOnlyUnwritten : Obligations.CommandsFaultOnlyUnwritten := by
  refine ⟨fun i s r h => ?refusal, fun i s f h => ?fault⟩
  case refusal =>
    obtain ⟨t, ht⟩ | ⟨k, -, -, hf⟩ := exec_completesOrUnwritten i s
    · cases ht.symm.trans h
    · cases hf.symm.trans h
  case fault =>
    obtain ⟨t, ht⟩ | ⟨k, hk, hnone, hf⟩ := exec_completesOrUnwritten i s
    · cases ht.symm.trans h
    · cases hf.symm.trans h
      exact ⟨k, hk, rfl, hnone⟩

/-! ### A command repeats identically (R85): its results are not its operands -/

section

variable {s t : State}

/-- STATUS is an operand of no command. -/
theorem exec_status (i : Instr) (s : State) (c : Status) : exec i { s with status := c } = exec i s := by
  cases i <;> rfl

theorem exec_repeats_failed {i : Instr} {c : Status} (h : exec i s = .next t) (ht : t = { s with status := c }) :
    exec i t = .next t := by
  have hrep : exec i t = exec i s := ht ▸ exec_status i s c
  exact hrep.trans h

theorem execCrc16_repeats (h : execCrc16 s = .next t) : execCrc16 t = .next t := by
  obtain ⟨-, ht⟩ | ⟨f, hf, rfl⟩ := execCrc16_next h
  · exact exec_repeats_failed (i := .crc16) h ht
  · exact execCrc16_holds hf

theorem execBuildReq_repeats (h : execBuildReq s = .next t) : execBuildReq t = .next t := by
  obtain ⟨-, ht⟩ | ⟨-, ht⟩ | ⟨h0, h255, hs, hq, rfl⟩ := execBuildReq_next h
  · exact exec_repeats_failed (i := .buildReq) h ht
  · exact exec_repeats_failed (i := .buildReq) h ht
  · exact execBuildReq_inRange h0 h255 hs hq

/-- R172: VALIDATE ends with OK only on a frame that has passed every check. -/
theorem execValidate_ok (h : execValidate s = .next t) (hok : t.status = .ok) :
    ∃ f, InputHolds s f ∧ 2 ≤ f.length ∧ crcBytes (f.take (f.length - 2)) = f.drop (f.length - 2) ∧
      f[1]? = some s.func := by
  have hraise {c : Status} (hc : c ≠ .ok) : execValidate s ≠ raise c s := fun he =>
    hc (by rw [← hok, raise_next (he.symm.trans h)])
  have hl : LengthInBounds s := by
    by_contra hl
    exact hraise (by decide) (execValidate_out (Nat.lt_of_not_le hl))
  have hne : s.ibufLen ≠ 0 := fun h0 => hraise (by decide) (execValidate_empty h0)
  cases hr : Memory.readRange s.ibuf 0 s.ibufLen.toNat with
  | error k => cases (execValidate_unwritten hl (memory_readRange_error.mp hr)).symm.trans h
  | ok f =>
    obtain ⟨hlen, hf⟩ := memory_readRange_ok.mp hr
    have hin : InputHolds s f := ⟨hl, hlen, hf⟩
    have h2 : 2 ≤ f.length := by
      have h0 : s.ibufLen.toNat ≠ 0 := fun h0 => hne (BitVec.eq_of_toNat_eq h0)
      have h1 : f.length ≠ 1 := fun h1 => hraise (by decide) (execValidate_singleByte hin h1)
      omega
    have hcrc : crcBytes (f.take (f.length - 2)) = f.drop (f.length - 2) := by
      by_contra hcrc
      exact hraise (by decide) (execValidate_crcMismatch hin h2 hcrc)
    refine ⟨f, hin, h2, hcrc, ?_⟩
    by_contra hfn
    exact hraise (by decide) ((execValidate_crcAgrees hin h2 hcrc).trans (if_pos hfn))

/-- VALIDATE reads IBUF and FUNC, and writes the payload window. -/
theorem execValidate_repeats (h : execValidate s = .next t) : execValidate t = .next t := by
  obtain ⟨c, -, ht⟩ | rfl := execValidate_next h
  · exact exec_repeats_failed (i := .validate) h ht
  · obtain ⟨f, hin, h2, hcrc, hfn⟩ := execValidate_ok h rfl
    have hlen : f.length = s.ibufLen.toNat := by
      obtain ⟨-, hlen, -⟩ := hin
      exact hlen
    rw [← hlen]
    exact (execValidate_crcAgrees (s := { s with poff := 3, plen := _, status := .ok }) hin h2 hcrc).trans
      (if_neg (not_not.mpr hfn))

theorem execDecodeBits_repeats (h : execDecodeBits s = .next t) : execDecodeBits t = .next t := by
  obtain ht | ⟨p, hp, hm, rfl⟩ | ⟨p, hp, hm, hc, rfl⟩ := execDecodeBits_next h
  · exact exec_repeats_failed (i := .decodeBits) h ht
  · exact execDecodeBits_asObserved hm hp
  · exact execDecodeBits_padded hm hc hp

theorem decodeChunks_repeats {W : Nat} {sgn : Bool} (h : decodeChunks W sgn s = .next t) :
    decodeChunks W sgn t = .next t := by
  obtain ⟨hw, rfl⟩ | ⟨hl, rfl⟩ | ⟨p, hp, hl, rfl⟩ := decodeChunks_next h
  · exact decodeChunks_out hw
  · exact h
  · exact decodeChunks_holds hp hl

theorem plan_repeats {fn : Byte} {rpv : Nat} (h : plan fn rpv s = .next t) : plan fn rpv t = .next t := by
  obtain ⟨hq, rfl⟩ | ⟨hq, rfl⟩ := plan_next h
  · exact plan_fieldRange hq
  · exact plan_fits hq

end

/-- Settles O13: no command reads a register or buffer it writes. -/
theorem commandsRepeatIdentically : Obligations.CommandsRepeatIdentically := by
  intro i s t h
  cases i with
  | crc16 => exact execCrc16_repeats h
  | buildReq => exact execBuildReq_repeats h
  | validate => exact execValidate_repeats h
  | decodeBits => exact execDecodeBits_repeats h
  | decodeIntU16 | decodeIntS16 | decodeIntU32 | decodeIntS32 | decodeIntU64 | decodeIntS64
  | decodeFloatF32 | decodeFloatF64 => exact decodeChunks_repeats h
  | planCoils | planDiscrete | planInt16 | planInt32 | planInt64 | planFloat32 | planFloat64 => exact plan_repeats h

/-! ### Frames: the registers and buffers each family writes -/

theorem families_disjoint :
    (∀ i ∈ [Instr.crc16, .buildReq], i ∉ decodeCommands ∧ i ∉ planCommands) ∧
    (∀ i ∈ decodeCommands, i ∉ [Instr.crc16, .buildReq] ∧ i ∉ planCommands) ∧
    (∀ i ∈ planCommands, i ∉ [Instr.crc16, .buildReq] ∧ i ∉ decodeCommands) := by
  decide

section

variable {s t : State} {i : Instr}

/-- CRC16 and BUILD_REQ write STATUS and the result in OBUF with its CRC and length. -/
theorem exec_crc16_buildReq_writes (hi : i ∈ [Instr.crc16, .buildReq]) (h : exec i s = .next t) :
    ∃ c crc n m, t = { s with status := c, crc := crc, obufLen := n, obuf := m } := by
  obtain ⟨hdisj, -, -⟩ := families_disjoint
  cases exec_effect h with
  | failed _ c _ _ ht => exact ⟨c, _, _, _, ht⟩
  | frame _ _ _ c ht => exact ⟨.ok, c, _, _, ht⟩
  | window => exact absurd hi (by decide)
  | values _ hv => exact absurd hv (hdisj i hi).1
  | plan _ hp => exact absurd hp (hdisj i hi).2

/-- VALIDATE writes STATUS and the payload window. -/
theorem exec_validate_writes (h : exec .validate s = .next t) :
    ∃ c o l, t = { s with status := c, poff := o, plen := l } := by
  obtain ⟨c, -, ht⟩ | ht := execValidate_next h
  · exact ⟨c, _, _, ht⟩
  · exact ⟨.ok, _, _, ht⟩

/-- A decode command writes STATUS and the entries of VALUES with their number. -/
theorem exec_decode_writes (hi : i ∈ decodeCommands) (h : exec i s = .next t) :
    ∃ c n m, t = { s with status := c, vcount := n, values := m } := by
  obtain ⟨-, hdisj, -⟩ := families_disjoint
  cases exec_effect h with
  | failed _ c _ _ ht => exact ⟨c, _, _, ht⟩
  | frame _ hf => exact absurd hf (hdisj i hi).1
  | window => exact absurd hi (by decide)
  | values _ _ _ ht => exact ⟨.ok, _, _, ht⟩
  | plan _ hp => exact absurd hp (hdisj i hi).2

/-- A PLAN command writes STATUS, FUNC, QTY and EXPLEN. -/
theorem exec_plan_writes (hi : i ∈ planCommands) (h : exec i s = .next t) :
    ∃ c fn q e, t = { s with status := c, func := fn, qty := q, explen := e } := by
  obtain ⟨-, -, hdisj⟩ := families_disjoint
  cases exec_effect h with
  | failed _ c _ _ ht => exact ⟨c, _, _, _, ht⟩
  | frame _ hf => exact absurd hf (hdisj i hi).1
  | window => exact absurd hi (by decide)
  | values _ hv => exact absurd hv (hdisj i hi).2
  | plan _ _ fn q e ht => exact ⟨.ok, fn, q, e, ht⟩

end

/-- Settles O14: a read at another offset reads a register or buffer that is not written. -/
theorem frameCrc16BuildReq : Obligations.FrameCrc16BuildReq := by
  intro i s t hi h
  obtain ⟨c, crc, len, m, rfl⟩ := exec_crc16_buildReq_writes hi h
  refine ⟨rfl, rfl, rfl, rfl, rfl, rfl, rfl, rfl, rfl, rfl, rfl, rfl, rfl, fun _ => rfl, fun _ => rfl,
    fun off n hoff hobuf => memRead_congr rfl ?_ (fun _ => rfl) (.inr hobuf) (.inl fun _ => rfl)⟩
  rintro r rfl
  cases r with
  | status | obufLen | crc => exact absurd (by decide) hoff
  | _ => rfl

/-- Settles O15: a read at another offset reads a register or buffer that is not written. -/
theorem frameValidate : Obligations.FrameValidate := by
  intro s t h
  obtain ⟨c, o, l, rfl⟩ := exec_validate_writes h
  refine ⟨rfl, rfl, rfl, rfl, rfl, rfl, rfl, rfl, rfl, rfl, rfl, rfl, rfl, fun _ => rfl, fun _ => rfl, fun _ => rfl,
    fun off n hoff => memRead_congr rfl ?_ (fun _ => rfl) (.inl fun _ => rfl) (.inl fun _ => rfl)⟩
  rintro r rfl
  cases r with
  | status | poff | plen => exact absurd (by decide) hoff
  | _ => rfl

/-- Settles O16: a read at another offset reads a register or buffer that is not written. -/
theorem frameDecode : Obligations.FrameDecode := by
  intro i s t hi h
  obtain ⟨c, len, m, rfl⟩ := exec_decode_writes hi h
  refine ⟨rfl, rfl, rfl, rfl, rfl, rfl, rfl, rfl, rfl, rfl, rfl, rfl, rfl, rfl, fun _ => rfl, fun _ => rfl,
    fun off n hoff hvalues => memRead_congr rfl ?_ (fun _ => rfl) (.inl fun _ => rfl) (.inr hvalues)⟩
  rintro r rfl
  cases r with
  | status | vcount => exact absurd (by decide) hoff
  | _ => rfl

/-- Settles O17: a read at another offset reads a register or buffer that is not written. -/
theorem framePlan : Obligations.FramePlan := by
  intro i s t hi h
  obtain ⟨c, fn, q, e, rfl⟩ := exec_plan_writes hi h
  refine ⟨rfl, rfl, rfl, rfl, rfl, rfl, rfl, rfl, rfl, rfl, rfl, rfl, fun _ => rfl, fun _ => rfl, fun _ => rfl,
    fun off n hoff => memRead_congr rfl ?_ (fun _ => rfl) (.inl fun _ => rfl) (.inl fun _ => rfl)⟩
  rintro r rfl
  cases r with
  | status | func | qty | explen => exact absurd (by decide) hoff
  | _ => rfl

end Sys2Proof.Proofs

/-! PROOFS. The family other, 40_crc: the CRC on numbers (R130), its reference values (R138), residue zero (R136), and
the detection of single-bit flips (R137). -/

namespace Sys2Proof.Proofs

open Machine Laws

/-! ### The CRC on numbers (R130) -/

theorem toNat_crcBitStep (r : Half) : (crcBitStep r).toNat = crcStepNat r.toNat := by
  have hodd : r.getLsbD 0 = decide (r.toNat % 2 = 1) := Nat.testBit_zero r.toNat
  unfold crcBitStep crcStepNat
  rw [hodd]
  by_cases h : r.toNat % 2 = 1
  · simp [h, BitVec.toNat_xor, Nat.shiftRight_eq_div_pow]
  · simp [h, Nat.shiftRight_eq_div_pow]

theorem toNat_crcSteps (n : Nat) (r : Half) : (crcSteps n r).toNat = Nat.iterate crcStepNat n r.toNat := by
  induction n generalizing r with
  | zero => rfl
  | succ n ih => rw [crcSteps, ih, toNat_crcBitStep, Function.iterate_succ_apply]

theorem crc16_append_singleton (bs : List Byte) (b : Byte) : crc16 (bs ++ [b]) = crcByte (crc16 bs) b :=
  crcFrom_append 0xFFFF bs [b]

/-- Settles O18: the bit step on words is the bit step on numbers, and a byte has no bit above bit 7. -/
theorem crc16Function : Obligations.Crc16Function := by
  refine ⟨rfl, fun bs b => ?_⟩
  have hbyte : (b.setWidth 16).toNat = b.toNat := BitVec.toNat_setWidth_of_le (by decide)
  rw [crc16_append_singleton, crcByte, toNat_crcSteps, BitVec.toNat_xor, hbyte]

/-- Settles O20: the values of R138, by computation. -/
theorem crcReferenceValues : Obligations.CrcReferenceValues := by
  have hcrc : crc16 [0x01, 0x03, 0x00, 0x00, 0x00, 0x0A] = 0xCDC5 := by decide +kernel
  have hwire : crcWire 0xCDC5 = [0xC5, 0xCD] := by decide
  exact ⟨hcrc, (congrArg crcWire hcrc).trans hwire, by decide +kernel⟩

/-! ### A frame with its CRC appended has residue zero (R136) -/

theorem crcBitStep_even {r : Half} (h : r.getLsbD 0 = false) : crcBitStep r = r >>> (1 : Nat) :=
  if_neg (Bool.eq_false_iff.mp h)

theorem crcBitStep_odd {r : Half} (h : r.getLsbD 0 = true) : crcBitStep r = (r >>> (1 : Nat)) ^^^ 0xA001 := if_pos h

/-- A register whose low bits are clear is only shifted. -/
theorem crcSteps_of_low_clear {n : Nat} {r : Half} (h : ∀ i, i < n → r.getLsbD i = false) :
    crcSteps n r = r >>> n := by
  induction n generalizing r with
  | zero => simp [crcSteps]
  | succ n ih =>
    have hshift : ∀ i, i < n → (r >>> 1).getLsbD i = false := fun i hi => by
      rw [BitVec.getLsbD_ushiftRight]
      exact h (1 + i) (by omega)
    rw [crcSteps, crcBitStep_even (h 0 (by omega)), ih hshift, ← BitVec.shiftRight_add, Nat.add_comm]

/-- The low wire byte clears the low half of the register, and its eight steps move the high half down. -/
theorem crcByte_loByte (c : Half) : crcByte c (loByte c) = c >>> 8 := by
  have hlow : ∀ i, i < 8 → (c ^^^ (loByte c).setWidth 16).getLsbD i = false := fun i hi => by
    simp [loByte, hi, show i < 16 by omega]
  rw [crcByte, crcSteps_of_low_clear hlow]
  apply BitVec.eq_of_getLsbD_eq
  simp

/-- The high wire byte clears what is left of the register. -/
theorem crcByte_hiByte (c : Half) : crcByte (c >>> 8) (hiByte c) = 0 := by
  have hhigh : (hiByte c).setWidth 16 = c >>> 8 := by
    apply BitVec.eq_of_toNat_eq
    simp [hiByte, Nat.shiftRight_eq_div_pow]
    omega
  rw [crcByte, hhigh, BitVec.xor_self]
  rfl

theorem crcFrom_crcWire (c : Half) : crcFrom c (crcWire c) = 0 :=
  (congrArg (crcByte · (hiByte c)) (crcByte_loByte c)).trans (crcByte_hiByte c)

theorem crc16_append_crcBytes (bs : List Byte) : crc16 (bs ++ crcBytes bs) = 0 :=
  (crcFrom_append 0xFFFF bs _).trans (crcFrom_crcWire _)

/-- Settles O21: the two wire bytes shift the register out. -/
theorem crcResidueIsZero : Obligations.CrcResidueIsZero := crc16_append_crcBytes

/-! ### A single-bit flip changes the CRC (R137) -/

/-- The bit shifted out comes back as bit 15, so a bit step loses nothing. -/
theorem crcBitStep_injective : Function.Injective crcBitStep := by
  have htop (r : Half) : (crcBitStep r).getLsbD 15 = r.getLsbD 0 := by
    cases h : r.getLsbD 0 with
    | false => simp [crcBitStep_even h]
    | true => simp [crcBitStep_odd h]
  intro a b hab
  have h0 : a.getLsbD 0 = b.getLsbD 0 := by rw [← htop a, ← htop b, hab]
  have hshift : a >>> (1 : Nat) = b >>> (1 : Nat) := by
    cases hb : b.getLsbD 0 with
    | false => rwa [crcBitStep_even (h0.trans hb), crcBitStep_even hb] at hab
    | true =>
      rw [crcBitStep_odd (h0.trans hb), crcBitStep_odd hb] at hab
      exact (BitVec.xor_left_inj _).mp hab
  apply BitVec.eq_of_getLsbD_eq
  intro i hi
  cases i with
  | zero => exact h0
  | succ i =>
    have hbit := congrArg (BitVec.getLsbD · i) hshift
    simpa [Nat.add_comm] using hbit

theorem crcSteps_injective (n : Nat) : Function.Injective (crcSteps n) := by
  induction n with
  | zero => exact Function.injective_id
  | succ n ih => exact ih.comp crcBitStep_injective

/-- The byte read decides the register reached. -/
theorem crcByte_injective_byte (r : Half) : Function.Injective (crcByte r) := by
  intro a b hab
  have hx : r ^^^ a.setWidth 16 = r ^^^ b.setWidth 16 := crcSteps_injective 8 hab
  have hw : a.setWidth 16 = b.setWidth 16 := (BitVec.xor_right_inj r).mp hx
  simpa using congrArg (BitVec.setWidth 8) hw

/-- The register before a byte decides the register after it. -/
theorem crcByte_injective_register (b : Byte) : Function.Injective (crcByte · b) := by
  intro r r' h
  exact (BitVec.xor_left_inj _).mp (crcSteps_injective 8 h)

theorem crcFrom_injective (bs : List Byte) : Function.Injective (crcFrom · bs) := by
  induction bs with
  | nil => exact Function.injective_id
  | cons b bs ih => exact ih.comp (crcByte_injective_register b)

theorem flipBit_eq_append {f : List Byte} {p : Nat} (hp : p / 8 < f.length) :
    flipBit f p = f.take (p / 8) ++ (f[p / 8] ^^^ BitVec.twoPow 8 (p % 8)) :: f.drop (p / 8 + 1) :=
  List.modify_eq_take_cons_drop hp

@[simp] theorem flipBit_length (f : List Byte) (p : Nat) : (flipBit f p).length = f.length := List.length_modify ..

theorem xor_twoPow_ne (b : Byte) {k : Nat} (hk : k < 8) : b ^^^ BitVec.twoPow 8 k ≠ b := by
  intro h
  have hbit := congrArg (BitVec.getLsbD · k) h
  simp [hk] at hbit

/-- A flip is seen in the CRC of the whole: it changes one byte, and the bytes after it keep the difference. -/
theorem crc16_flipBit_ne {f : List Byte} {p : Nat} (hp : p < 8 * f.length) : crc16 (flipBit f p) ≠ crc16 f := by
  have hbyte : p / 8 < f.length := by omega
  have hsplit : f = f.take (p / 8) ++ f[p / 8] :: f.drop (p / 8 + 1) := by simp
  intro h
  rw [flipBit_eq_append hbyte] at h
  conv at h => rhs; rw [hsplit]
  simp only [crc16, crcFrom_append] at h
  exact xor_twoPow_ne _ (Nat.mod_lt p (by decide)) (crcByte_injective_byte _ (crcFrom_injective _ h))

/-- A frame whose last two bytes are the CRC of the rest has residue zero. -/
theorem crc16_eq_zero_of_crcBytes_eq {f : List Byte} (h : crcBytes (f.take (f.length - 2)) = f.drop (f.length - 2)) :
    crc16 f = 0 := by
  have hres := crc16_append_crcBytes (f.take (f.length - 2))
  rwa [h, List.take_append_drop] at hres

/-- Settles O22: the frame and the flipped frame would both have residue zero. -/
theorem crcDetectsSingleBitFlip : Obligations.CrcDetectsSingleBitFlip := by
  intro bs p hp
  dsimp only
  intro hagree
  have hlen : (bs ++ crcBytes bs).length = bs.length + 2 := by rw [List.length_append, crcBytes_length]
  refine crc16_flipBit_ne (f := bs ++ crcBytes bs) (hlen ▸ hp) ?_
  rw [crc16_eq_zero_of_crcBytes_eq hagree, crc16_append_crcBytes]

end Sys2Proof.Proofs

/-! PROOFS. The family other, frames: a built request carries its operands and passes the CRC check (41_encoder), a
well-formed response is accepted and a tampered one is not (42_validator). -/

namespace Sys2Proof.Proofs

open Machine Laws

/-! ### A built request (R150, R152) -/

section

variable {s t : State}

/-- After a successful BUILD_REQ, OBUF is the frame of operands that fit their fields. -/
theorem execBuildReq_ok (h : execBuildReq s = .next t) (hok : t.status = .ok) :
    0 ≤ s.devAddr.toInt ∧ s.devAddr.toInt ≤ 255 ∧ s.start.toNat ≤ 0xFFFF ∧ s.qty.toNat ≤ 0xFFFF ∧
      ∀ i, Memory.read t.obuf i =
        (requestFrame (s.devAddr.setWidth 8) s.func (s.start.setWidth 16) (s.qty.setWidth 16))[i]? := by
  obtain ⟨-, rfl⟩ | ⟨-, rfl⟩ | ⟨h0, h255, hs, hq, rfl⟩ := execBuildReq_next h
  · cases hok
  · cases hok
  · exact ⟨h0, h255, hs, hq, memory_read_ofList _⟩

/-- R157: an address in range loses nothing in the frame's address byte. -/
theorem toNat_setWidth_address {v : Word} (h0 : 0 ≤ v.toInt) (h255 : v.toInt ≤ 255) :
    ((v.setWidth 8).toNat : Int) = v.toInt := by
  rw [BitVec.toNat_setWidth]
  rw [BitVec.toInt_eq_toNat_cond] at *
  split at * <;> omega

/-- R17: the two bytes of a word in the 16-bit range give it back. -/
theorem bytes_value {v : Word} (hv : v.toNat ≤ 0xFFFF) :
    (hiByte (v.setWidth 16)).toNat * 256 + (loByte (v.setWidth 16)).toNat = v.toNat := by
  simp only [hiByte_eq_ofNat, loByte_eq_ofNat, BitVec.toNat_ofNat, BitVec.toNat_setWidth]
  omega

end

/-- Settles O25: the operands fit the widths of the frame's fields. -/
theorem buildReqFieldsRoundTrip : Obligations.BuildReqFieldsRoundTrip := by
  intro s t h hok
  obtain ⟨h0, h255, hs, hq, hread⟩ := execBuildReq_ok h hok
  exact ⟨_, _, _, _, _, hread 0, hread 1, hread 2, hread 3, hread 4, hread 5, toNat_setWidth_address h0 h255,
    bytes_value hs, bytes_value hq⟩

/-- Settles O26: the frame is six bytes and their CRC bytes. -/
theorem buildReqPassesCrcCheck : Obligations.BuildReqPassesCrcCheck := by
  intro s t h hok
  obtain ⟨-, -, -, -, hread⟩ := execBuildReq_ok h hok
  exact ⟨requestFrame (s.devAddr.setWidth 8) s.func (s.start.setWidth 16) (s.qty.setWidth 16), requestFrame_length ..,
    fun i _ => (congrArg _ (Nat.zero_add i)).trans (hread i), rfl, crc16_append_crcBytes _⟩

/-! ### A well-formed response (R170, R172) -/

/-- The CRC check of a frame that ends with the CRC bytes of the rest. -/
theorem crc_check_append_crcBytes (bs : List Byte) :
    crcBytes ((bs ++ crcBytes bs).take ((bs ++ crcBytes bs).length - 2)) =
      (bs ++ crcBytes bs).drop ((bs ++ crcBytes bs).length - 2) := by
  have hlen : (bs ++ crcBytes bs).length - 2 = bs.length := by simp
  rw [hlen, List.take_left, List.drop_left]

/-- R176: the payload stands between three header bytes and the two CRC bytes. -/
theorem windowHolds_payload {s : State} {header p crc : List Byte} (hheader : header.length = 3)
    (hcrc : crc.length = 2) (hin : InputHolds s (header ++ p ++ crc)) :
    WindowHolds { s with poff := 3, plen := BitVec.ofNat 16 p.length, status := .ok } p := by
  obtain ⟨hbounds, hlen, hf⟩ := hin
  have hframe : (header ++ p ++ crc).length = p.length + 5 := by
    rw [List.length_append, List.length_append]
    omega
  have hmax := s.ibufLen.isLt
  have hplen : (BitVec.ofNat 16 p.length).toNat = p.length := by
    rw [BitVec.toNat_ofNat]
    omega
  refine ⟨⟨hbounds, fun _ => ?inBounds⟩, hplen.symm, fun j hj => ?payload⟩
  case inBounds =>
    show 3 + (BitVec.ofNat 16 p.length).toNat ≤ s.ibufLen.toNat
    omega
  case payload =>
    have hbyte := hf (header.length + j) (by omega)
    rw [List.append_assoc, List.getElem?_append_right (by omega), Nat.add_sub_cancel_left,
      List.getElem?_append_left hj, Nat.zero_add, hheader] at hbyte
    exact hbyte

/-- Settles O28: the response passes every check, and the window is that of its payload. -/
theorem validateRoundTrip : Obligations.ValidateRoundTrip := by
  intro s a k p hin
  have hpass := execValidate_crcAgrees hin (by simp) (crc_check_append_crcBytes _)
  have hplen : ([a, s.func, k] ++ p ++ crcBytes ([a, s.func, k] ++ p)).length - 5 = p.length := by simp
  rw [if_neg (by simp), hplen] at hpass
  exact ⟨_, hpass, rfl, windowHolds_payload rfl rfl hin, fun _ => rfl⟩

/-- Settles O29: the flipped frame fails the CRC check. -/
theorem validateDetectsTamper : Obligations.ValidateDetectsTamper := by
  intro s a fn k p bit hbit hin
  have h2 : 2 ≤ (flipBit ([a, fn, k] ++ p ++ crcBytes ([a, fn, k] ++ p)) bit).length := by simp
  have hp : bit < 8 * (([a, fn, k] ++ p).length + 2) := hbit.trans_eq (by simp)
  exact execValidate_crcMismatch hin h2 (crcDetectsSingleBitFlip _ bit hp)

end Sys2Proof.Proofs

/-! PROOFS. The family other, 43_decoder: what DECODE_INT and DECODE_FLOAT write (R200 to R212), and what DECODE_BITS
refuses (R190, R191). -/

namespace Sys2Proof.Proofs

open Machine Laws

/-! ### The value of a chunk (R200, R201, R210) -/

section

variable {W j c : Nat} {p bytes : List Byte}

theorem chunk_length (h : (j + 1) * W ≤ p.length) : (chunk W p j).length = W := by
  rw [chunk, List.length_take, List.length_drop]
  rw [Nat.add_mul, Nat.one_mul] at h
  omega

/-- R17: a chunk of W bytes has an 8W-bit value. -/
theorem toNat_ofNat_be (h : bytes.length = W) : (BitVec.ofNat (8 * W) (be bytes)).toNat = bigEndian bytes := by
  have hlt : be bytes < 2 ^ (8 * W) := by
    rw [Nat.pow_mul, ← h]
    exact be_lt bytes
  rw [BitVec.toNat_ofNat, Nat.mod_eq_of_lt hlt, be_eq_bigEndian]

/-- R201, R210: zero extension keeps the value. -/
theorem toNat_chunkValue (hW : 8 * W ≤ 64) (h : bytes.length = W) :
    (chunkValue W false bytes).toNat = bigEndian bytes :=
  (BitVec.toNat_setWidth_of_le hW).trans (toNat_ofNat_be h)

/-- R16: the signed value of a pattern is its two's complement value. -/
theorem toInt_eq_tc {N : Nat} (hN : 0 < N) (x : BitVec N) : x.toInt = tc N x.toNat := by
  have hpow : 2 ^ (N - 1) * 2 = 2 ^ N := Nat.two_pow_pred_mul_two hN
  rw [BitVec.toInt_eq_toNat_cond, tc]
  split
  · rw [if_pos (by omega)]
  · rw [if_neg (by omega)]
    simp

/-- R201: sign extension keeps the two's complement value. -/
theorem toInt_chunkValue (hpos : 0 < W) (hW : 8 * W ≤ 64) (h : bytes.length = W) :
    (chunkValue W true bytes).toInt = tc (8 * W) (bigEndian bytes) := by
  have hext : (chunkValue W true bytes).toInt = (BitVec.ofNat (8 * W) (be bytes)).toInt :=
    BitVec.toInt_signExtend_of_le hW
  rw [hext, toInt_eq_tc (by omega), toNat_ofNat_be h]

theorem chunkValues_getElem? (W : Nat) (sgn : Bool) (p : List Byte) (hj : j < c) :
    (chunkValues W sgn c p)[j]? = some (chunkValue W sgn (chunk W p j)) := by
  simp [chunkValues, hj]

end

/-! ### A window of COUNT chunks (R201, R208, R210) -/

section

variable {s : State} {p : List Byte} {W : Nat} {sgn : Bool}

/-- R200: the values a decode writes, as many as COUNT. -/
theorem decodeChunks_completes (hp : WindowHolds s p) (hl : s.plen.toNat = s.count.toNat * W) :
    decodeChunks W sgn s = .next { s with
      values := Memory.ofList (chunkValues W sgn s.count.toNat p), vcount := s.count, status := .ok } := by
  have hcount : BitVec.ofNat 32 (chunkValues W sgn s.count.toNat p).length = s.count := by
    rw [chunkValues_length, BitVec.ofNat_toNat, BitVec.setWidth_eq]
  exact (decodeChunks_holds hp hl).trans (finish_putValues hcount s)

/-- R200: chunk j lies inside a window of COUNT chunks. -/
theorem window_chunk_length (hp : WindowHolds s p) (hl : s.plen.toNat = s.count.toNat * W) {j : Nat}
    (hj : j < s.count.toNat) : (chunk W p j).length = W := by
  obtain ⟨-, hlen, -⟩ := hp
  exact chunk_length (by rw [hlen, hl]; exact Nat.mul_le_mul_right W hj)

/-- R201, R210: entry j of an unsigned or float decode is the big-endian value of chunk j. -/
theorem chunkValues_toNat (hW : 8 * W ≤ 64) (hp : WindowHolds s p) (hl : s.plen.toNat = s.count.toNat * W) {j : Nat}
    (hj : j < s.count.toNat) :
    (chunkValues W false s.count.toNat p)[j]?.map BitVec.toNat = some (bigEndian ((p.drop (j * W)).take W)) := by
  rw [chunkValues_getElem? W false p hj, Option.map_some, toNat_chunkValue hW (window_chunk_length hp hl hj), chunk]

/-- R201: entry j of a signed decode is the two's complement value of chunk j. -/
theorem chunkValues_toInt (hpos : 0 < W) (hW : 8 * W ≤ 64) (hp : WindowHolds s p)
    (hl : s.plen.toNat = s.count.toNat * W) {j : Nat} (hj : j < s.count.toNat) :
    (chunkValues W true s.count.toNat p)[j]?.map BitVec.toInt =
      some (tc (8 * W) (bigEndian ((p.drop (j * W)).take W))) := by
  rw [chunkValues_getElem? W true p hj, Option.map_some, toInt_chunkValue hpos hW (window_chunk_length hp hl hj), chunk]

end

/-- The decodes whose entries are zero-extended, with their widths. -/
def unsignedCommands : List (Instr × Nat) :=
  [(.decodeIntU16, 2), (.decodeIntU32, 4), (.decodeIntU64, 8)] ++ [(.decodeFloatF32, 4), (.decodeFloatF64, 8)]

/-- R202, R204, R206, R211, R212: each is the shared body without a sign, at a width of at most 64 bits. -/
theorem exec_unsignedCommands :
    ∀ c ∈ unsignedCommands, 8 * c.2 ≤ 64 ∧ ∀ s, exec c.1 s = decodeChunks c.2 false s := by
  simp only [unsignedCommands, List.cons_append, List.nil_append, List.forall_mem_cons]
  exact ⟨⟨by decide, fun _ => rfl⟩, ⟨by decide, fun _ => rfl⟩, ⟨by decide, fun _ => rfl⟩, ⟨by decide, fun _ => rfl⟩,
    ⟨by decide, fun _ => rfl⟩, List.forall_mem_nil _⟩

/-- R203, R205, R207: each signed decode is the shared body with a sign, at a width of at most 64 bits. -/
theorem exec_signedCommands : ∀ c ∈ [(Instr.decodeIntS16, 2), (Instr.decodeIntS32, 4), (Instr.decodeIntS64, 8)],
    (0 < c.2 ∧ 8 * c.2 ≤ 64) ∧ ∀ s, exec c.1 s = decodeChunks c.2 true s := by
  simp only [List.forall_mem_cons]
  exact ⟨⟨by decide, fun _ => rfl⟩, ⟨by decide, fun _ => rfl⟩, ⟨by decide, fun _ => rfl⟩, List.forall_mem_nil _⟩

/-- The zero-extending decodes complete with the values of their chunks. -/
theorem unsignedCommands_complete {s : State} {i : Instr} {W : Nat} {p : List Byte}
    (hi : (i, W) ∈ unsignedCommands) (hp : WindowHolds s p) (hl : s.plen.toNat = s.count.toNat * W) :
    ∃ vs : List Value,
      exec i s = .next { s with values := Memory.ofList vs, vcount := s.count, status := .ok } ∧
      vs.length = s.count.toNat ∧
      ∀ j, j < s.count.toNat → vs[j]?.map BitVec.toNat = some (bigEndian ((p.drop (j * W)).take W)) := by
  obtain ⟨hW, hexec⟩ := exec_unsignedCommands (i, W) hi
  exact ⟨_, (hexec s).trans (decodeChunks_completes hp hl), chunkValues_length .., fun j => chunkValues_toNat hW hp hl⟩

/-- Settles O30: the unsigned decodes are zero-extending. -/
theorem decodeIntUnsigned : Obligations.DecodeIntUnsigned := fun _ _ _ _ hi =>
  unsignedCommands_complete (List.mem_append_left _ hi)

/-- Settles O31: sign extension keeps the two's complement value of a chunk. -/
theorem decodeIntSigned : Obligations.DecodeIntSigned := by
  intro s i W p hi hp hl
  obtain ⟨⟨hpos, hW⟩, hexec⟩ := exec_signedCommands (i, W) hi
  exact ⟨_, (hexec s).trans (decodeChunks_completes hp hl), chunkValues_length ..,
    fun j => chunkValues_toInt hpos hW hp hl⟩

/-- Settles O32: the float decodes are zero-extending. -/
theorem decodeFloatPatterns : Obligations.DecodeFloatPatterns := fun _ _ _ _ hi =>
  unsignedCommands_complete (List.mem_append_right _ hi)

/-! ### Values written big-endian are decoded to themselves (R218) -/

theorem chunk_flatMap {α : Type} {W : Nat} {enc : α → List Byte} (henc : ∀ v, (enc v).length = W) (vs : List α)
    {j : Nat} (hj : j < vs.length) : chunk W (vs.flatMap enc) j = enc vs[j] := by
  induction vs generalizing j with
  | nil => cases hj
  | cons v vs ih =>
    cases j with
    | zero => simp [chunk, List.take_left' (henc v)]
    | succ j =>
      have hskip : (j + 1) * W = (enc v).length + j * W := by rw [henc, Nat.add_mul, Nat.one_mul, Nat.add_comm]
      rw [chunk, hskip, List.flatMap_cons, List.drop_length_add_append]
      exact ih (by simpa using hj)

theorem length_flatMap_const {α : Type} {W : Nat} {enc : α → List Byte} (henc : ∀ v, (enc v).length = W) (vs : List α) :
    (vs.flatMap enc).length = vs.length * W := by
  simp [List.length_flatMap, henc]

theorem bigEndian_bytesOf32 (v : BitVec 32) : bigEndian (bytesOf32 v) = v.toNat := by
  simp [bigEndian, bytesOf32, Nat.shiftRight_eq_div_pow]
  omega

theorem bigEndian_bytesOf64 (v : BitVec 64) : bigEndian (bytesOf64 v) = v.toNat := by
  simp [bigEndian, bytesOf64, Nat.shiftRight_eq_div_pow]
  omega

/-- R52: a decode of values written by `enc`, entry by entry. -/
theorem decodeChunks_flatMap {α : Type} {W : Nat} {sgn : Bool} {enc : α → List Byte} {s : State} {vs : List α}
    (henc : ∀ v, (enc v).length = W) (hp : WindowHolds s (vs.flatMap enc)) (hc : s.count.toNat = vs.length) :
    ∃ t, decodeChunks W sgn s = .next t ∧ t.status = .ok ∧
      ∀ j, Memory.read t.values j = vs[j]?.map fun v => chunkValue W sgn (enc v) := by
  have hl : s.plen.toNat = s.count.toNat * W := by
    obtain ⟨-, hlen, -⟩ := hp
    rw [← hlen, length_flatMap_const henc, hc]
  refine ⟨_, decodeChunks_completes hp hl, rfl, fun j => (memory_read_ofList ..).trans ?_⟩
  by_cases hj : j < vs.length
  · rw [chunkValues_getElem? W sgn _ (hc ▸ hj), chunk_flatMap henc vs hj, List.getElem?_eq_getElem hj, Option.map_some]
  · rw [List.getElem?_eq_none (by rw [chunkValues_length]; omega), List.getElem?_eq_none (by omega), Option.map_none]

/-- Settles O34: the big-endian value of a value's bytes is the value. -/
theorem decodeGivesBackWhatWasEncoded : Obligations.DecodeGivesBackWhatWasEncoded := by
  refine ⟨fun s is hp hc => ?ints, fun s fs hp hc => ?floats⟩
  case ints =>
    obtain ⟨t, ht, hok, hread⟩ := decodeChunks_flatMap (W := 4) (sgn := true) (fun _ => rfl) hp hc
    refine ⟨t, ht, hok, fun j => ?_⟩
    have hvalue (v : BitVec 32) : (chunkValue 4 true (bytesOf32 v)).toInt = v.toInt := by
      rw [toInt_chunkValue (W := 4) (by decide) (by decide) rfl, bigEndian_bytesOf32, toInt_eq_tc (by decide) v]
    simp [hread, Function.comp_def, hvalue]
  case floats =>
    obtain ⟨t, ht, hok, hread⟩ := decodeChunks_flatMap (W := 8) (sgn := false) (fun _ => rfl) hp hc
    refine ⟨t, ht, hok, fun j => ?_⟩
    have hvalue (v : BitVec 64) : chunkValue 8 false (bytesOf64 v) = v := by
      apply BitVec.eq_of_toNat_eq
      rw [toNat_chunkValue (W := 8) (by decide) rfl, bigEndian_bytesOf64]
    simp [hread, hvalue]

/-! ### What DECODE_BITS refuses (R190, R191, R293) -/

section

variable {s : State}

theorem execDecodeBits_out (h : ¬ WindowInBounds s) : execDecodeBits s = raise .bufferBounds s := withWindow_out h

theorem execDecodeBits_count (hw : WindowInBounds s) (hm : s.params.bitMode = .padded)
    (hc : s.params.vcap < s.count.toNat) : execDecodeBits s = raise .bufferBounds s := by
  rw [execDecodeBits, withWindow_in hw, hm]
  exact if_pos hc

theorem execDecodeBits_unwritten {k : Nat} (hw : WindowInBounds s)
    (hc : s.params.bitMode = .asObserved ∨ s.count.toNat ≤ s.params.vcap)
    (h : FirstUnwritten s.ibuf s.poff.toNat s.plen.toNat k) :
    execDecodeBits s = .fault (.unwritten (.ibuf k)) := by
  rw [execDecodeBits, withWindow_in hw]
  cases hm : s.params.bitMode with
  | asObserved => exact withBytes_unwritten h
  | padded =>
    have hle : s.count.toNat ≤ s.params.vcap := hc.resolve_left (by simp [hm])
    exact (if_neg (Nat.not_lt.mpr hle)).trans (withBytes_unwritten h)

end

/-- Settles O37: OPC 4 has the one word of R105, and the checks come in the order of R191. -/
theorem decodeBitsRejects : Obligations.DecodeBitsRejects := by
  have hword : encode .decodeBits = 0x00000004 := by decide
  refine ⟨fun w => ?word, fun w s hopc hne => ?otherWord, fun s => execDecodeBits_out, fun s => execDecodeBits_count,
    fun s k => execDecodeBits_unwritten⟩
  case word => exact hword ▸ decode_ok_iff_eq_encode
  case otherWord => exact execute_of_ne_encode (i := .decodeBits) rfl (by decide) hopc (hword ▸ hne) s

end Sys2Proof.Proofs

/-! PROOFS. The family other, the host's side: the reset input (R310), the statements and transport calls of the host
(30_encoding R111, 45_host_pipeline R251 to R259). -/

namespace Sys2Proof.Proofs

open Machine Laws

/-! ### One move (R111, R253, R254, R310) -/

section

variable {s : State} {rest : List Move}

/-- Settles O44: the reset input keeps the parameters and the host's side. -/
theorem platformResetStep : Obligations.PlatformResetStep := fun _ _ h => step_cons h

theorem status_code_eq_zero_iff {c : Status} : (c.code.setWidth 32 : Word) = 0 ↔ c = .ok := by
  cases c <;> decide

/-- R111: the operation goes on. -/
theorem step_failUnlessOk_ok (h : s.host.moves = .failUnlessOk :: rest) (hok : s.status = .ok) :
    step s = .next (s.setMoves rest) := by
  rw [step_cons h]
  simp only [runMove, runFailUnlessOk, memRead_reg]
  exact if_pos (status_code_eq_zero_iff.mpr hok)

/-- R257: the operation ends with the code read. -/
theorem step_failUnlessOk_failed (h : s.host.moves = .failUnlessOk :: rest) (hne : s.status ≠ .ok) :
    step s = .next (endProgram (.failed (s.status.code.setWidth 32)) (s.setMoves rest)) := by
  rw [step_cons h]
  simp only [runMove, runFailUnlessOk, memRead_reg]
  exact if_neg (mt status_code_eq_zero_iff.mp hne)

/-- Settles O47: STATUS is OK exactly when its code is 0. -/
theorem failUnlessOkStep : Obligations.FailUnlessOkStep :=
  fun _ _ h => ⟨step_failUnlessOk_ok h, step_failUnlessOk_failed h⟩

/-- R253: the host's reads of OBUF from index i on give the bytes it holds. -/
theorem readFrame_holds {frame : List Byte} {i : Nat} (hlen : i + frame.length ≤ 8) (h : Holds s.obuf i frame) :
    readFrame s i frame.length = .ok frame := by
  induction frame generalizing i with
  | nil => rfl
  | cons b bs ih =>
    have hlen' : i + 1 + bs.length ≤ 8 := by simpa [Nat.add_assoc, Nat.add_comm 1] using hlen
    have hb : Memory.read s.obuf i = some b := by simpa using h 0 (by simp)
    have hbs : Holds s.obuf (i + 1) bs := fun j hj => by
      simpa [Nat.add_assoc, Nat.add_comm 1] using h (j + 1) (by simpa using hj)
    have hread : readAt s (obufBase + i) 1 = .ok (b.setWidth 32) := by
      have hoff : obufBase + i < 2 ^ 32 := by
        rw [obufBase]
        omega
      rw [readAt, if_pos hoff, obufBase, memRead_obuf s (by omega), hb]
    simp only [List.length_cons, readFrame, hread, ih hlen' hbs]
    simp

/-- R253: XMIT with a frame in OBUF[0 : OBUF_LEN] hands that frame to one write call. -/
theorem runXmit_holds {frame : List Byte} (hlen : frame.length = s.obufLen.toNat) (h8 : s.obufLen.toNat ≤ 8)
    (h : Holds s.obuf 0 frame) : runXmit s = .next (afterWrite frame (Config.txTimesOut s.host.writeCalls) s) := by
  have hread : memRead s Reg.obufLen.offset 4 = .ok (s.obufLen.setWidth 32) := memRead_reg s .obufLen
  have hcount : (s.obufLen.setWidth 32).toNat = frame.length :=
    (BitVec.toNat_setWidth_of_le (by decide)).trans hlen.symm
  simp only [runXmit, hread, hcount, readFrame_holds (i := 0) (by omega) h]

/-- Settles O48: a write-timeout ends the operation, any other answer of the transport lets it go on. -/
theorem xmitSendsRequest : Obligations.XmitSendsRequest := by
  intro s frame rest hm hlen h8 h
  rw [step_cons hm, runMove, runXmit_holds (s := s.setMoves rest) hlen h8 h]
  cases hto : Config.txTimesOut s.host.writeCalls <;> simp [afterWrite, hto, endProgram] <;> rfl

/-- Settles O49: EXPLEN and the SIZE of CONFIG are what the host reads. -/
theorem recvExpectedStep : Obligations.RecvExpectedStep := by
  intro s rest hm
  have hexplen : memRead (s.setMoves rest) Reg.explen.offset 4 = .ok s.explen := memRead_reg _ .explen
  have hconfig : memRead (s.setMoves rest) Reg.config.offset 4 = .ok (configWord s.params) := memRead_reg _ .config
  rw [step_cons hm]
  simp only [runMove, runRecvExpected, hexplen, hconfig, configWord_size]
  rfl

end

/-! ### Transport calls (R259) -/

theorem writesIn_append (as bs : List Move) : writesIn (as ++ bs) = writesIn as + writesIn bs := by
  rw [writesIn, List.map_append, List.sum_append]
  rfl

theorem readsIn_append (as bs : List Move) : readsIn (as ++ bs) = readsIn as + readsIn bs := by
  rw [readsIn, List.map_append, List.sum_append]
  rfl

theorem writesIn_le_of_sublist {as bs : List Move} (h : as.Sublist bs) : writesIn as ≤ writesIn bs :=
  (h.map _).sum_le_sum fun _ _ => Nat.zero_le _

theorem readsIn_le_of_sublist {as bs : List Move} (h : as.Sublist bs) : readsIn as ≤ readsIn bs :=
  (h.map _).sum_le_sum fun _ _ => Nat.zero_le _

/-- LOADRESP is bus writes only. -/
theorem calls_loadMovesFrom (p : Params) (i : Nat) (bytes : List Byte) :
    writesIn (loadMovesFrom p i bytes) = 0 ∧ readsIn (loadMovesFrom p i bytes) = 0 := by
  induction bytes generalizing i with
  | nil => exact ⟨rfl, rfl⟩
  | cons b bs ih => simpa [writesIn, readsIn, loadMovesFrom, moveWrb] using ih (i + 1)

theorem calls_loadMoves (p : Params) (bytes : List Byte) :
    writesIn (loadMoves p bytes) = 0 ∧ readsIn (loadMoves p bytes) = 0 := by
  obtain ⟨hw, hr⟩ := calls_loadMovesFrom p 0 bytes
  rw [loadMoves, writesIn_append, readsIn_append, hw, hr]
  exact ⟨rfl, rfl⟩

/-- R251: the sixteen steps hold one XMIT, and one RECV with a second one for the echo. -/
theorem calls_expand (p : Params) (echo : Bool) (op : ReadOp) :
    writesIn (op.expand p echo) = 1 ∧ readsIn (op.expand p echo) ≤ 2 := by
  cases echo with
  | false => exact ⟨rfl, Nat.le_succ 1⟩
  | true => exact ⟨rfl, Nat.le_refl 2⟩

/-- From `s` to `t` the transport calls made, with those the moves to come may still make, grow by at most `w` writes
and `r` reads. -/
def CallsGrow (w r : Nat) (s t : HostSide) : Prop :=
  t.writeCalls + writesIn t.moves ≤ s.writeCalls + writesIn s.moves + w ∧
  t.readCalls + readsIn t.moves ≤ s.readCalls + readsIn s.moves + r

/-- The moves to come are those there were, or some of them, behind new ones. -/
theorem callsGrow_of_sublist {w r : Nat} {s t : HostSide} (new : List Move) (hm : t.moves.Sublist (new ++ s.moves))
    (hw : t.writeCalls + writesIn new ≤ s.writeCalls + w) (hr : t.readCalls + readsIn new ≤ s.readCalls + r) :
    CallsGrow w r s t := by
  have hwrites := writesIn_le_of_sublist hm
  have hreads := readsIn_le_of_sublist hm
  rw [writesIn_append] at hwrites
  rw [readsIn_append] at hreads
  exact ⟨by omega, by omega⟩

theorem callsGrow_of_moves_eq {w r : Nat} {s t : HostSide} (hm : t.moves = s.moves)
    (hw : t.writeCalls ≤ s.writeCalls + w) (hr : t.readCalls ≤ s.readCalls + r) : CallsGrow w r s t :=
  callsGrow_of_sublist [] (hm ▸ List.Sublist.refl _) hw hr

section

variable {s t : State}

theorem memWrite_host {off v : Word} {n : Nat} (h : memWrite s off n v = .next t) : t.host = s.host := by
  obtain ⟨-, -, he⟩ | ⟨r, -, -, -, -, rfl⟩ | ⟨i, -, -, -, rfl⟩ := memWrite_next h
  · obtain ⟨-, -, hh, -⟩ := execute_same he
    exact hh
  · exact writeReg_host ..
  · rfl

/-- A timeout keeps the resets to come only. -/
theorem callsGrow_afterWrite (frame : List Byte) (timedOut : Bool) (s : State) :
    CallsGrow 1 0 s.host (afterWrite frame timedOut s).host := by
  cases timedOut with
  | false => exact callsGrow_of_moves_eq rfl (Nat.le_refl _) (Nat.le_refl _)
  | true => exact callsGrow_of_sublist [] List.filter_sublist (Nat.le_refl _) (Nat.le_refl _)

theorem callsGrow_runXmit (h : runXmit s = .next t) : CallsGrow 1 0 s.host t.host := by
  unfold runXmit at h
  split at h
  · cases h
  · split at h <;> cases h
    exact callsGrow_afterWrite ..

theorem callsGrow_runRecv {n : Nat} (h : runRecv n s = .next t) : CallsGrow 0 1 s.host t.host := by
  cases h
  exact callsGrow_of_moves_eq rfl (Nat.le_refl _) (Nat.le_refl _)

theorem callsGrow_runRecvExpected (h : runRecvExpected s = .next t) : CallsGrow 0 1 s.host t.host := by
  unfold runRecvExpected at h
  split at h
  · cases h
  · split at h
    · cases h
    · exact callsGrow_runRecv h

theorem callsGrow_runFailUnlessOk (h : runFailUnlessOk s = .next t) : CallsGrow 0 0 s.host t.host := by
  unfold runFailUnlessOk at h
  split at h
  · cases h
  · split at h <;> cases h
    · exact callsGrow_of_moves_eq rfl (Nat.le_refl _) (Nat.le_refl _)
    · exact callsGrow_of_sublist [] List.filter_sublist (Nat.le_refl _) (Nat.le_refl _)

theorem callsGrow_runReadValue {i : Nat} (h : runReadValue i s = .next t) : CallsGrow 0 0 s.host t.host := by
  unfold runReadValue at h
  split at h <;> cases h
  exact callsGrow_of_moves_eq rfl (Nat.le_refl _) (Nat.le_refl _)

theorem callsGrow_runBusRead {addr : Word} {n : Nat} (h : runBusRead addr n s = .next t) :
    CallsGrow 0 0 s.host t.host := by
  unfold runBusRead at h
  split at h <;> cases h
  exact callsGrow_of_moves_eq rfl (Nat.le_refl _) (Nat.le_refl _)

theorem callsGrow_pushMoves {ms : List Move} {w r : Nat} (s : State) (hw : writesIn ms ≤ w) (hr : readsIn ms ≤ r) :
    CallsGrow w r s.host (pushMoves ms s).host :=
  callsGrow_of_sublist ms (List.Sublist.refl _) (Nat.add_le_add_left hw _) (Nat.add_le_add_left hr _)

theorem callsGrow_loadMoves (bytes : List Byte) (s : State) :
    CallsGrow 0 0 s.host (pushMoves (loadMoves s.params bytes) s).host := by
  obtain ⟨hw, hr⟩ := calls_loadMoves s.params bytes
  exact callsGrow_pushMoves s hw.le hr.le

theorem callsGrow_runReadValues (h : runReadValues s = .next t) : CallsGrow 0 0 s.host t.host := by
  unfold runReadValues at h
  split at h <;> cases h
  refine callsGrow_pushMoves s ?_ ?_ <;> simp [writesIn, readsIn, Function.comp_def]

theorem callsGrow_runReadOp {op : ReadOp} (h : runReadOp op s = .next t) : CallsGrow 1 2 s.host t.host := by
  unfold runReadOp at h
  split at h <;> cases h
  obtain ⟨hw, hr⟩ := calls_expand s.params s.host.echo op
  exact callsGrow_pushMoves _ hw.le hr

/-- A move makes no more calls than it counts for. -/
theorem callsGrow_runMove {m : Move} (h : runMove m s = .next t) :
    CallsGrow (writesIn [m]) (readsIn [m]) s.host t.host := by
  cases m with
  | busWrite addr n v =>
    rw [memWrite_host h]
    exact callsGrow_of_moves_eq rfl (Nat.le_refl _) (Nat.le_refl _)
  | busRead addr n => exact callsGrow_runBusRead h
  | readValue i => exact callsGrow_runReadValue h
  | loadResp bytes => cases h; exact callsGrow_loadMoves bytes s
  | loadReceived => cases h; exact callsGrow_loadMoves _ s
  | xmit => exact callsGrow_runXmit h
  | recv n => exact callsGrow_runRecv h
  | recvDiscard n => cases h; exact callsGrow_of_moves_eq rfl (Nat.le_refl _) (Nat.le_refl _)
  | recvExpected => exact callsGrow_runRecvExpected h
  | failUnlessOk => exact callsGrow_runFailUnlessOk h
  | readValues => exact callsGrow_runReadValues h
  | succeed => cases h; exact callsGrow_of_moves_eq rfl (Nat.le_refl _) (Nat.le_refl _)
  | readOp op => exact callsGrow_runReadOp h
  | platformReset => cases h; exact callsGrow_of_moves_eq rfl (Nat.le_refl _) (Nat.le_refl _)

theorem callsGrow_step (h : step s = .next t) : CallsGrow 0 0 s.host t.host := by
  cases hm : s.host.moves with
  | nil =>
    have hidle : step s = .next s := by simp only [step, hm]
    cases hidle.symm.trans h
    exact callsGrow_of_moves_eq rfl (Nat.le_refl _) (Nat.le_refl _)
  | cons m rest =>
    obtain ⟨hw, hr⟩ := callsGrow_runMove ((step_cons hm).symm.trans h)
    have hwrites := writesIn_append [m] rest
    have hreads := readsIn_append [m] rest
    simp only [setMoves_host] at hw hr
    rw [List.singleton_append] at hwrites hreads
    rw [CallsGrow, hm, hwrites, hreads]
    exact ⟨by omega, by omega⟩

end

/-- Settles O50: each move pays for its calls, and a read operation for those of its steps. -/
theorem transportCallsBounded : Obligations.TransportCallsBounded :=
  ⟨fun _ _ => callsGrow_step, fun _ => ⟨rfl, rfl⟩⟩

end Sys2Proof.Proofs

/-! PROOFS. The family other, runs of the host: LOADRESP (R111), and read operations that fail before any transport call
(R251, R259). -/

namespace Sys2Proof.Proofs

open Machine Laws

/-! ### The writes of the host's statements (R111) -/

section

variable {s : State} {rest : List Move}

theorem step_regWrite {r : Reg} {v : Word} (h : s.host.moves = moveWr s.params r v :: rest)
    (hw : r.hostWritable = true) (hcmd : r ≠ .cmd) : step s = .next ((s.setMoves rest).writeReg r v) :=
  (step_busWrite h).trans (memWrite_reg _ v hw hcmd)

theorem step_ibufWrite {i : Nat} {b : Byte} (h : s.host.moves = moveWrb s.params i b :: rest)
    (hi : i < s.params.size) : step s = .next ((s.setMoves rest).writeIbuf i b) := by
  have hbyte : (b.setWidth 32).setWidth 8 = b := by simp
  have hwrite := memWrite_ibuf (s := s.setMoves rest) (v := b.setWidth 32) (accepted_ibuf hi)
  rw [hbyte] at hwrite
  exact (step_busWrite h).trans hwrite

end

/-! ### LOADRESP (R111) -/

/-- IBUF after byte writes at i, i+1, … -/
def writeBytes (m : List Host.Cell) : Nat → List Byte → List Host.Cell
  | _, [] => m
  | i, b :: bs => writeBytes (Memory.write m i b) (i + 1) bs

theorem read_writeBytes_outside (m : List Host.Cell) {i k : Nat} {bytes : List Byte}
    (h : k < i ∨ i + bytes.length ≤ k) : Memory.read (writeBytes m i bytes) k = Memory.read m k := by
  induction bytes generalizing m i with
  | nil => rfl
  | cons b bs ih =>
    rw [List.length_cons] at h
    rw [writeBytes, ih _ (by omega), memory_read_write_other m b (by omega)]

theorem holds_writeBytes (m : List Host.Cell) (i : Nat) (bytes : List Byte) :
    Holds (writeBytes m i bytes) i bytes := by
  induction bytes generalizing m i with
  | nil => exact fun j hj => absurd hj (Nat.not_lt_zero j)
  | cons b bs ih =>
    intro j hj
    cases j with
    | zero =>
      rw [writeBytes, read_writeBytes_outside _ (by omega)]
      exact memory_read_write_same m i b
    | succ j =>
      have hrest := ih (Memory.write m i b) (i + 1) j (by simpa using hj)
      rwa [Nat.add_right_comm i 1 j] at hrest

/-- The byte writes of LOADRESP, one step each. -/
theorem run_loadMovesFrom {s : State} {bytes : List Byte} {i : Nat} {rest : List Move} (k : Nat)
    (h : s.host.moves = loadMovesFrom s.params i bytes ++ rest) (hfit : i + bytes.length ≤ s.params.size) :
    Host.Core.run core (bytes.length + k) s =
      Host.Core.run core k { s.setMoves rest with ibuf := writeBytes s.ibuf i bytes } := by
  induction bytes generalizing s i with
  | nil =>
    obtain rfl : s.host.moves = rest := h
    rw [List.length_nil, Nat.zero_add]
    rfl
  | cons b bs ih =>
    rw [List.length_cons] at hfit
    rw [List.length_cons, Nat.add_right_comm, run_succ (step_ibufWrite (b := b) h (by omega)),
      ih rfl (by simpa [Nat.add_assoc, Nat.add_comm 1] using hfit)]
    rfl

/-- R111: LOADRESP takes one step for the statement, one for each byte and one for IBUF_LEN. -/
theorem run_loadResp {s : State} {bytes : List Byte} {rest : List Move} (hm : s.host.moves = .loadResp bytes :: rest)
    (hfit : bytes.length ≤ s.params.size) :
    Host.Core.run core (bytes.length + 2) s = .next { s.setMoves rest with
      ibuf := writeBytes s.ibuf 0 bytes, ibufLen := (BitVec.ofNat 32 bytes.length).setWidth 16 } := by
  have hmoves : loadMoves s.params bytes ++ rest =
      loadMovesFrom s.params 0 bytes ++ moveWr s.params .ibufLen (BitVec.ofNat 32 bytes.length) :: rest :=
    (List.append_assoc ..).trans rfl
  have hstart : step s = .next (s.setMoves (loadMoves s.params bytes ++ rest)) := step_cons hm
  have hlength := step_regWrite (rest := rest) (v := BitVec.ofNat 32 bytes.length)
    (s := { s.setMoves (moveWr s.params .ibufLen (BitVec.ofNat 32 bytes.length) :: rest) with
      ibuf := writeBytes s.ibuf 0 bytes }) rfl (r := .ibufLen) rfl (by decide)
  rw [run_succ hstart, hmoves, run_loadMovesFrom 1 rfl (by simpa using hfit)]
  exact run_succ hlength

/-- Settles O53: the byte writes, then the write of IBUF_LEN, which holds every length that fits IBUF. -/
theorem loadRespLoadsInput : Obligations.LoadRespLoadsInput := by
  intro s bytes rest hm hfit
  have hsize := size_le s.params
  have hlen : ((BitVec.ofNat 32 bytes.length).setWidth 16).toNat = bytes.length := by
    rw [BitVec.toNat_setWidth, BitVec.toNat_ofNat]
    omega
  exact ⟨_, run_loadResp hm hfit, ⟨hlen.trans_le hfit, hlen.symm, holds_writeBytes _ _ _⟩,
    fun k hk => read_writeBytes_outside _ (.inr (by rwa [Nat.zero_add])), rfl⟩

/-! ### Read operations up to their PLAN command (R251 steps 1 to 3) -/

/-- R251 steps 4 to 7, before the moves `tail`. -/
def requestSteps (p : Params) (op : ReadOp) (tail : List Move) : List Move :=
  moveWr p .devAddr (BitVec.ofInt 32 op.args.1) :: moveWr p .start (BitVec.ofInt 32 op.args.2.1) ::
    moveCmd p (encode .buildReq) :: .failUnlessOk :: tail

/-- R251 steps 8 to 16: the transport calls and the decode. -/
def exchangeSteps (p : Params) (echo : Bool) (op : ReadOp) : List Move := (op.expand p echo).drop 7

/-- R251: the state in which the PLAN command of an operation runs: the operation has started, COUNT is written. -/
def planning (s : State) (op : ReadOp) : State :=
  { s with
    count := BitVec.ofInt 32 op.args.2.2
    cmd := op.planWord
    host := { s.host with results := [], outcome := .running } }

/-- R251: the moves that come after the PLAN command of an operation. -/
def movesAfterPlan (s : State) (op : ReadOp) (rest : List Move) : List Move :=
  .failUnlessOk :: requestSteps s.params op (exchangeSteps s.params s.host.echo op ++ rest)

theorem expand_append (s : State) (op : ReadOp) (rest : List Move) :
    op.expand s.params s.host.echo ++ rest =
      moveWr s.params .count (BitVec.ofInt 32 op.args.2.2) :: moveCmd s.params op.planWord ::
        movesAfterPlan s op rest := rfl

/-- No step of an operation is a reset, so a failed one leaves the resets planned behind it (log 8). -/
theorem filter_exchangeSteps (p : Params) (echo : Bool) (op : ReadOp) (rest : List Move) :
    (exchangeSteps p echo op ++ rest).filter (fun m => m == Move.platformReset) =
      rest.filter (fun m => m == Move.platformReset) := by
  have hnone : ∀ m ∈ op.expand p echo, m ≠ Move.platformReset := by
    cases echo <;> simp [ReadOp.expand, moveWr, moveCmd]
  have hdrop : (exchangeSteps p echo op).filter (fun m => m == Move.platformReset) = [] :=
    List.filter_eq_nil_iff.mpr fun m hm => by simpa using hnone m (List.mem_of_mem_drop hm)
  rw [List.filter_append, hdrop, List.nil_append]

theorem filter_requestSteps (p : Params) (echo : Bool) (op : ReadOp) (rest : List Move) :
    (requestSteps p op (exchangeSteps p echo op ++ rest)).filter (fun m => m == Move.platformReset) =
      rest.filter (fun m => m == Move.platformReset) := by
  rw [← filter_exchangeSteps p echo op rest]
  rfl

/-! The first move of a list set into a state, one lemma per kind of move the operation begins with. -/

section

variable (s : State) (rest : List Move)

theorem step_setMoves_failUnlessOk (hok : s.status = .ok) :
    step (s.setMoves (.failUnlessOk :: rest)) = .next (s.setMoves rest) :=
  step_failUnlessOk_ok (s := s.setMoves (.failUnlessOk :: rest)) rfl hok

theorem step_setMoves_regWrite (r : Reg) (v : Word) (hw : r.hostWritable = true) (hcmd : r ≠ .cmd) :
    step (s.setMoves (moveWr s.params r v :: rest)) = .next ((s.writeReg r v).setMoves rest) := by
  have hcomm : (s.setMoves rest).writeReg r v = (s.writeReg r v).setMoves rest := by cases r <;> rfl
  rw [← hcomm]
  exact step_regWrite (s := s.setMoves (moveWr s.params r v :: rest)) rfl hw hcmd

theorem step_setMoves_moveCmd (w : Word) :
    step (s.setMoves (moveCmd s.params w :: rest)) = execute w ({ s with cmd := w }.setMoves rest) :=
  step_cmdWrite (s := s.setMoves (moveCmd s.params w :: rest)) rfl

end

/-- Three steps bring an operation to the end of its PLAN command. -/
theorem run_readOp_plan (k : Nat) {s t : State} {op : ReadOp} {rest : List Move}
    (hm : s.host.moves = .readOp op :: rest) (hrun : op.runnable = true)
    (hplan : execute op.planWord ((planning s op).setMoves (movesAfterPlan s op rest)) = .next t) :
    Host.Core.run core (k + 3) s = Host.Core.run core k t := by
  have hstart : step s = .next ((s.setHost { s.host with results := [], outcome := .running }).setMoves
      (op.expand s.params s.host.echo ++ rest)) := (step_cons hm).trans (if_pos hrun)
  have hcount := step_setMoves_regWrite (s.setHost { s.host with results := [], outcome := .running })
    (moveCmd s.params op.planWord :: movesAfterPlan s op rest) .count (BitVec.ofInt 32 op.args.2.2) rfl (by decide)
  have hcmd := step_setMoves_moveCmd
    ((s.setHost { s.host with results := [], outcome := .running }).writeReg .count (BitVec.ofInt 32 op.args.2.2))
    (movesAfterPlan s op rest) op.planWord
  rw [expand_append] at hstart
  exact (run_succ hstart).trans ((run_succ hcount).trans (run_succ (hcmd.trans hplan)))

/-- R252: the PLAN word of an unrecognised selector. -/
theorem decode_planWord_unknown {op : ReadOp}
    (h : (∃ d st c sg, op = .ints d st c none sg) ∨ (∃ d st c, op = .floats d st c none)) :
    decode op.planWord = .error .invalidFormat := by
  obtain ⟨d, st, c, sg, rfl⟩ | ⟨d, st, c, rfl⟩ := h
  · exact decode_invalidFormat_iff.mpr (by simp only [ReadOp.planWord]; decide)
  · exact decode_invalidFormat_iff.mpr (by simp only [ReadOp.planWord]; decide)

/-- Settles O51: the PLAN word is rejected, and the next step ends the operation. -/
theorem invalidFormatBeforeIO : Obligations.InvalidFormatBeforeIO := by
  intro s op rest hm hrun hop
  have hplan := execute_invalidFormat (decode_planWord_unknown hop)
    ((planning s op).setMoves (movesAfterPlan s op rest))
  have hend := step_failUnlessOk_failed
    (s := { (planning s op).setMoves (movesAfterPlan s op rest) with status := .invalidFormat }) rfl (by simp)
  exact ⟨_, (run_readOp_plan 1 hm hrun hplan).trans (run_succ hend), rfl, rfl, rfl, rfl, filter_requestSteps ..,
    rfl, rfl, rfl, rfl⟩

/-! ### A device address outside 0 to 255 (R251 steps 4 to 7) -/

/-- R251 step 2: with a recognised selector the PLAN word is that of a PLAN command. -/
theorem exists_planRow {op : ReadOp} (hi : ∀ d st c sg, op ≠ .ints d st c none sg)
    (hf : ∀ d st c, op ≠ .floats d st c none) : ∃ r ∈ planRows, op.planWord = encode r.1 := by
  have row {i : Instr} (fn : Byte) (rpv : Nat) (hr : (i, fn, rpv) ∈ planRows) :
      ∃ r ∈ planRows, encode i = encode r.1 := ⟨_, hr, rfl⟩
  match op with
  | .coils .. => exact row (i := .planCoils) 0x01 1 (by decide)
  | .discreteInputs .. => exact row (i := .planDiscrete) 0x02 1 (by decide)
  | .ints _ _ _ (some .w16) _ => exact row (i := .planInt16) 0x03 1 (by decide)
  | .ints _ _ _ (some .w32) _ => exact row (i := .planInt32) 0x03 2 (by decide)
  | .ints _ _ _ (some .w64) _ => exact row (i := .planInt64) 0x03 4 (by decide)
  | .ints _ _ _ none _ => exact (hi _ _ _ _ rfl).elim
  | .floats _ _ _ (some .f32) => exact row (i := .planFloat32) 0x03 2 (by decide)
  | .floats _ _ _ (some .f64) => exact row (i := .planFloat64) 0x03 4 (by decide)
  | .floats _ _ _ none => exact (hf _ _ _ rfl).elim

/-- R231: no PLAN command asks for more than four registers per value. -/
theorem planRows_rpv_le : ∀ r ∈ planRows, r.2.2 ≤ 4 := by decide

/-- A count of at most 16383 is planned, whatever the width. -/
theorem execute_planWord_ok {op : ReadOp} {s : State} (hi : ∀ d st c sg, op ≠ .ints d st c none sg)
    (hf : ∀ d st c, op ≠ .floats d st c none) (hcount : s.count.toNat ≤ 16383) :
    ∃ fn q e, execute op.planWord s = .next { s with func := fn, qty := q, explen := e, status := .ok } := by
  obtain ⟨r, hr, hword⟩ := exists_planRow hi hf
  have hq : s.count.toNat * r.2.2 ≤ 0xFFFF :=
    (Nat.mul_le_mul hcount (planRows_rpv_le r hr)).trans (by decide)
  have hexec : execute op.planWord s = exec r.1 s := execute_ok (decode_ok_iff.mpr hword.symm) s
  exact ⟨_, _, _, hexec.trans ((exec_planRows r hr s).trans (plan_fits hq))⟩

/-- R262: a runnable operation's address keeps, in 32 bits, the property of lying outside 0 to 255. -/
theorem toInt_ofInt_outside {d : Int} (hform : hasWordForm d = true) (h : d < 0 ∨ 255 < d) :
    (BitVec.ofInt 32 d).toInt < 0 ∨ 255 < (BitVec.ofInt 32 d).toInt := by
  simp only [hasWordForm, Bool.and_eq_true, decide_eq_true_eq] at hform
  rw [BitVec.toInt_ofInt, Int.bmod]
  omega

theorem hasWordForm_of_runnable {op : ReadOp} (h : op.runnable = true) : hasWordForm op.args.1 = true := by
  simp only [ReadOp.runnable, Bool.and_eq_true] at h
  obtain ⟨⟨hdev, -⟩, -⟩ := h
  exact hdev

theorem toNat_ofInt_count {c : Int} (h0 : 0 ≤ c) (hc : c ≤ 16383) : (BitVec.ofInt 32 c).toNat ≤ 16383 := by
  rw [BitVec.toNat_ofInt]
  omega

/-- Steps 3 to 7 of R251 after a PLAN command that is done: BUILD_REQ refuses the address. -/
theorem run_badAddress {s : State} {op : ReadOp} (tail : List Move) (hok : s.status = .ok)
    (hd : (BitVec.ofInt 32 op.args.1).toInt < 0 ∨ 255 < (BitVec.ofInt 32 op.args.1).toInt) :
    Host.Core.run core 5 (s.setMoves (.failUnlessOk :: requestSteps s.params op tail)) =
      .next (endProgram (.failed (Status.invalidAddress.code.setWidth 32))
        ({ s with
          devAddr := BitVec.ofInt 32 op.args.1
          start := BitVec.ofInt 32 op.args.2.1
          cmd := encode .buildReq
          status := .invalidAddress }.setMoves tail)) := by
  have hgo := step_setMoves_failUnlessOk s (requestSteps s.params op tail) hok
  have hdev := step_setMoves_regWrite s
    (moveWr s.params .start (BitVec.ofInt 32 op.args.2.1) :: moveCmd s.params (encode .buildReq) ::
      .failUnlessOk :: tail) .devAddr (BitVec.ofInt 32 op.args.1) rfl (by decide)
  have hstart := step_setMoves_regWrite { s with devAddr := BitVec.ofInt 32 op.args.1 }
    (moveCmd s.params (encode .buildReq) :: .failUnlessOk :: tail) .start (BitVec.ofInt 32 op.args.2.1) rfl (by decide)
  have hcmd := step_setMoves_moveCmd
    { s with devAddr := BitVec.ofInt 32 op.args.1, start := BitVec.ofInt 32 op.args.2.1 }
    (.failUnlessOk :: tail) (encode .buildReq)
  rw [execute_ok (decode_ok_iff.mpr rfl)] at hcmd
  have hend := step_failUnlessOk_failed (rest := tail)
    (s := { s with
      devAddr := BitVec.ofInt 32 op.args.1
      start := BitVec.ofInt 32 op.args.2.1
      cmd := encode .buildReq
      status := .invalidAddress }.setMoves (.failUnlessOk :: tail)) rfl (by simp)
  exact (run_succ hgo).trans ((run_succ hdev).trans ((run_succ hstart).trans
    ((run_succ (hcmd.trans (execBuildReq_badAddress hd))).trans (run_succ hend))))

/-- Settles O52: PLAN completes, BUILD_REQ refuses the address, and the next step ends the operation. -/
theorem invalidAddressBeforeIO : Obligations.InvalidAddressBeforeIO := by
  intro s op rest hm hrun hi hf h0 hc hd
  have hform : hasWordForm op.args.1 = true := hasWordForm_of_runnable hrun
  obtain ⟨fn, q, e, hplan⟩ :=
    execute_planWord_ok (s := (planning s op).setMoves (movesAfterPlan s op rest)) hi hf (toNat_ofInt_count h0 hc)
  have hbad := run_badAddress (s := { planning s op with func := fn, qty := q, explen := e, status := .ok })
    (exchangeSteps s.params s.host.echo op ++ rest) rfl (toInt_ofInt_outside hform hd)
  exact ⟨_, (run_readOp_plan 5 hm hrun hplan).trans hbad, rfl, rfl, rfl, rfl, filter_exchangeSteps .., rfl⟩

end Sys2Proof.Proofs
